-- ==== Sys2Proof/Word.lean ====
section
/-! DEFINITION. The word types of the block: every architectural value is an unsigned integer of a stated width
(00_scope.md R4, R5). -/

namespace Sys2Proof

/-- An operand, result or port value: `XLEN` = 64 bits, unsigned (R4). -/
abbrev Word := BitVec 64

/-- An intermediate product: `WLEN` = 128 bits (R4). -/
abbrev Wide := BitVec 128

/-- A register port index: `AW` = 6 bits, 64 word slots (R4, R40). -/
abbrev Index := BitVec 6

/-- A command opcode: 8 bits of the 64-bit command word (R4, R60). -/
abbrev Opcode := BitVec 8

end Sys2Proof
end

