-- ==== Sys2Proof/Config.lean ====
section
/-! DEFINITION. The fixed parameters and tables of the block (00_scope.md R4, 10_state.md R28). They are constants of the
design, not configuration: nothing here is an argument of the model, and no value is left free. -/

namespace Sys2Proof.Config

/-- `WITNESS[0..11]`, in the order in which ISPRIME tries them (R4). -/
def witnesses : List Word := [2#64, 3#64, 5#64, 7#64, 11#64, 13#64, 17#64, 19#64, 23#64, 29#64, 31#64, 37#64]

/-- `WHEEL[0..7]`, the increments between successive divisor candidates, period 8 (R4, R126). -/
def wheel : Vector Nat 8 := #v[4, 2, 4, 2, 4, 6, 2, 6]

/-- `WHEEL_START`, the first wheel candidate (R4). -/
def wheelStart : Nat := 7

/-- `FMAX`, the number of pairs the factor file holds (R4, R131). -/
abbrev factorSlots : Nat := 15

end Sys2Proof.Config
end

