-- ==== Sys2Proof/Syntax.lean ====
section
/-! DEFINITION. The syntax: the four commands (30_encoding.md R63), the registers by the names of the port map
(20_memory.md R44), and the lines of a host program (30_encoding.md R69, R70). -/

namespace Sys2Proof

/-- The commands, one constructor for each row of spec/opcode_table.json. A command word names no operand (R61): the
operands are the operand registers, by fixed assignment (R11). -/
inductive Instr where
  /-- MODSQ, the modular squarer (40_modsq.md R80). -/
  | modsq
  /-- MODPOW, the modular exponentiation engine (41_modpow.md R90). -/
  | modpow
  /-- ISPRIME, the Miller-Rabin witness test (42_isprime.md R100). -/
  | isprime
  /-- FACTOR, the trial-division factorizer (43_factor.md R120). -/
  | factor
  deriving DecidableEq, Repr

/-- The registers that the port map of R44 names. `fp i` and `fe i` are the two halves of pair `i` of the factor file;
a well-formed one has `i < 15` (WellFormed.lean). -/
inductive Reg where
  | cmd
  | status
  | opa
  | opb
  | opm
  | res
  | fcnt
  | fp (i : Nat)
  | fe (i : Nat)
  deriving DecidableEq, Repr

/-- One line of a host program. `write` and `read` are the two transactions of R41; `wait` and `readFactors` are the two
host loops inside the pseudo-instructions of R70; `reset` is the line `RESET` of R69, the event of R170. -/
inductive HostOp where
  /-- `WR idx, data`: `PortWrite(idx, data)` (R43). At index 0x00 it is a command write (R64). -/
  | write (idx : Index) (data : Word)
  /-- `RD idx`: `PortRead(idx)` (R42). -/
  | read (idx : Index)
  /-- `WAIT`: repeat `RD STATUS -> s` until `s[0] = 0` (R70). -/
  | wait
  /-- The end of `factorize n`: `RD FCNT -> k`, then `RD FP[i]`, `RD FE[i]` for `i` in `0..k-1` (R70). -/
  | readFactors
  /-- `RESET`: the reset event, a pin and not a transaction (R69, R170). -/
  | reset
  deriving DecidableEq, Repr

end Sys2Proof
end

