-- ==== Sys2Proof/WellFormed.lean ====
section
/-! DEFINITION. Well-formedness of the syntax. Whether a 64-bit word is a command at all is the decoder's question
(Decode.lean). -/

namespace Sys2Proof

/-- A command has no operand field, no immediate and no mode bit (30_encoding.md R60, R61), so each of the four is
well formed. One arm per constructor: a command with a field would need its check here. -/
def Instr.wf : Instr → Bool
  | .modsq => true
  | .modpow => true
  | .isprime => true
  | .factor => true

/-- A register name is one of the port map's: the factor file has pairs 0 to 14 only (10_state.md R20, 20_memory.md R44). -/
def Reg.wf : Reg → Bool
  | .cmd => true
  | .status => true
  | .opa => true
  | .opb => true
  | .opm => true
  | .res => true
  | .fcnt => true
  | .fp i => decide (i < Config.factorSlots)
  | .fe i => decide (i < Config.factorSlots)

end Sys2Proof
end

