-- ==== Sys2Proof/Decode.lean ====
section
/-! DEFINITION. The command word: its fields, the decoder and the encoder (30_encoding.md R60, R63, R65, R68). The word is
one 64-bit number with bit 0 the least significant; it has no byte order (20_memory.md R47). -/

namespace Sys2Proof

/-- The field `opcode` of format C, bits 7:0 (R60). -/
def opcodeField (w : Word) : Opcode := w.extractLsb' 0 8

/-- The field `zero` of format C, bits 63:8, reserved (R60). -/
def zeroField (w : Word) : BitVec 56 := w.extractLsb' 8 56

/-- The opcode map, from command to opcode (R63). -/
def opcodeOf : Instr → Opcode
  | .modsq => 0x01#8
  | .modpow => 0x02#8
  | .isprime => 0x03#8
  | .factor => 0x04#8

/-- The opcode map, from opcode to command; `none` for the opcodes that R63 gives to no command. -/
def commandOf (op : Opcode) : Option Instr :=
  if op = 0x01#8 then some .modsq
  else if op = 0x02#8 then some .modpow
  else if op = 0x03#8 then some .isprime
  else if op = 0x04#8 then some .factor
  else none

/-- Why a word is no command (R65). -/
inductive DecodeReject where
  /-- A bit of the reserved field 63:8 is set. -/
  | reservedBits
  /-- Bits 63:8 are zero and the opcode is 0x00 or one of 0x05 to 0xFF. -/
  | illegalOpcode
  deriving DecidableEq, Repr

/-- What the decoder answers: a command, or the reason there is none. -/
inductive Decoded where
  | instr (i : Instr)
  | reject (r : DecodeReject)
  deriving DecidableEq, Repr

/-- The decoder, total on 64-bit words: the reserved field must be zero and the opcode one of the four (R65). -/
def decode (w : Word) : Decoded :=
  if zeroField w ≠ 0#56 then .reject .reservedBits
  else
    match commandOf (opcodeField w) with
    | some i => .instr i
    | none => .reject .illegalOpcode

/-- The encoder: format C with the reserved field zero (R60, R63). -/
def encode (i : Instr) : Word := 0#56 ++ opcodeOf i

/-- The command that the decoder reads, if it reads one. -/
def Decoded.toInstr? : Decoded → Option Instr
  | .instr i => some i
  | .reject _ => none

/-- The decoder on a word of the opcode table: `w` holds the `nbits` low bits of the 64-bit command word and the bits
above them are 0. A number with a bit at or above `nbits`, or above bit 63, is no port value and is refused. -/
def decodeTableWord (nbits w : Nat) : Option Instr :=
  if w < 2 ^ min nbits 64 then (decode (BitVec.ofNat 64 w)).toInstr? else none

end Sys2Proof
end

