-- ==== Sys2Proof/Machine/State.lean ====
section
/-! DEFINITION. The state of the machine: the block's architectural state, complete as 10_state.md R10 lists it, and
beside it the plain data that says which agent moves next and what the host still has to do (00_scope.md R8, R9). -/

namespace Sys2Proof.Machine

/-- What `CAUSE` can hold: the five causes of 60_exceptions.md R141 (codes 5 to 15 are never produced,
93_implementation_defined.md U11; notes/assumptions/11.md). `Cause.code` in Flags.lean gives the four bits. -/
inductive Cause where
  /-- Code 0: no fault recorded. -/
  | none
  /-- Code 1, `DIV_ZERO` (R142). -/
  | divZero
  /-- Code 2, `DOMAIN` (R143). -/
  | domain
  /-- Code 3, `ILLEGAL_CMD` (R144). -/
  | illegalCmd
  /-- Code 4, `BUSY_CMD` (R147). -/
  | busyCmd
  deriving DecidableEq, Repr

/-- The two agents that act on the block (R8). -/
inductive Agent where
  | host
  | engine
  deriving DecidableEq, Repr

/-- One value that a port read returned to the host (R42). -/
structure ReadSample where
  idx : Index
  data : Word
  deriving DecidableEq, Repr

/-- The architectural state of one block instance, and nothing else (R10). `STATUS` and the read side of `CMD` are views
of it (R14, R15). -/
structure Block where
  /-- `OPA`, operand register (R11). -/
  opa : Word
  /-- `OPB`, operand register (R11). -/
  opb : Word
  /-- `OPM`, operand register (R11). -/
  opm : Word
  /-- `RES`, result register (R13). -/
  res : Word
  /-- `OPC`, opcode of the last accepted command (R14). -/
  opc : Opcode
  /-- `BUSY` (R16). -/
  busy : Bool
  /-- `DONE` (R17). -/
  done : Bool
  /-- `FAULT`, sticky (R18). -/
  fault : Bool
  /-- `CAUSE` (R19). -/
  cause : Cause
  /-- `FCNT`, number of valid factor pairs (R21). -/
  fcnt : BitVec 4
  /-- `FP[0..14]`, the primes of the factor file (R20). -/
  fp : Vector Word Config.factorSlots
  /-- `FE[0..14]`, the exponents of the factor file (R20). -/
  fe : Vector Word Config.factorSlots
  /-- `LA`, latched `OPA`, hidden (R23). -/
  la : Word
  /-- `LB`, latched `OPB`, hidden (R23). -/
  lb : Word
  /-- `LM`, latched `OPM`, hidden (R23). -/
  lm : Word
  deriving DecidableEq, Repr

/-- The block right after reset: every item zero (R29, R170). -/
def Block.reset : Block where
  opa := 0#64
  opb := 0#64
  opm := 0#64
  res := 0#64
  opc := 0x00#8
  busy := false
  done := false
  fault := false
  cause := .none
  fcnt := 0#4
  fp := Vector.replicate Config.factorSlots 0#64
  fe := Vector.replicate Config.factorSlots 0#64
  la := 0#64
  lb := 0#64
  lm := 0#64

/-- The block, and the model's own fields: whose turn it is and what the host still does. All nondeterminism of the
spec (R9, U14) is in `turn`, `schedule` and `program` (notes/assumptions/1.md). -/
structure State where
  /-- The architectural state (R10). -/
  block : Block
  /-- The agent that takes the next step (R8). -/
  turn : Agent
  /-- The agents of the turns after that one, next first (DESIGN CHOICE, notes/assumptions/1.md). -/
  schedule : List Agent
  /-- The host lines still to be performed, next first (R9, R69; DESIGN CHOICE, notes/assumptions/3.md). -/
  program : List HostOp
  /-- What the port reads returned, newest first (R42; DESIGN CHOICE, notes/assumptions/7.md). -/
  reads : List ReadSample
  deriving DecidableEq, Repr

/-- Why the model stops. No reachable state does: each constructor names a state that 10_state.md R30 rules out and for
which the spec gives the engine no step (notes/assumptions/5.md). -/
inductive Fault where
  /-- Raised by the meanings of MODSQ, MODPOW and ISPRIME on the engine's turn, when `BUSY = 1` and the latched operands
  are outside the operation's domain (modulus 0, or n < 2), so that the rules would evaluate `a mod 0` or `ctz64(0)`,
  which R5 and R7 say they never do. R30 item 4 excludes it. Safe: the model stops where the spec gives nothing. -/
  | latchesOutsideDomain
  /-- Raised by the engine's turn when `BUSY = 1` and `OPC` names none of the four commands; R67 has no arm for it and R30
  item 4 excludes it. Safe: the model stops where the spec gives nothing. -/
  | opcNamesNoCommand
  deriving DecidableEq, Repr

/-- Why an instruction has no meaning. -/
inductive Refusal where
  /-- Would be raised by `exec` for an instruction not modelled yet. No arm of `exec` raises it: all four commands have
  their meaning. Safe. -/
  | notModelled (mnemonic : String)
  deriving DecidableEq, Repr

/-- The machine right after reset: the block all zero (R170), the host's turn, and nothing scheduled, programmed or read
(the model's own fields: DESIGN CHOICE, notes/assumptions/1.md and 3.md). -/
def State.reset : State where
  block := Block.reset
  turn := .host
  schedule := []
  program := []
  reads := []

end Sys2Proof.Machine
end

