-- ==== Sys2Proof/Machine/Arith.lean ====
section
/-! DEFINITION. The arithmetic primitives that every instruction file uses (00_scope.md R7). -/

namespace Sys2Proof.Machine

/-- `mulmod(a, b, m)`: widen both factors to 128 bits, multiply, take the remainder, narrow (R7). The spec evaluates it
only with `m >= 1`. -/
def mulmod (a b m : Word) : Word :=
  let product : Wide := a.setWidth 128 * b.setWidth 128
  (product % m.setWidth 128).setWidth 64

/-- The zero bits below the lowest set bit, looking at `fuel` bits at most. -/
def ctzScan : Nat → Word → Nat
  | 0, _ => 0
  | fuel + 1, v => if v.getLsbD 0 then 0 else ctzScan fuel (v >>> 1) + 1

/-- `ctz64(v)`: the number of consecutive zero low-order bits (R7). The spec evaluates it only with `v != 0`. -/
def ctz64 (v : Word) : Nat := ctzScan 64 v

/-- The bits of the square root of `v` from bit `k - 1` down to bit 0, below the part `r` already found. -/
def isqrtBits : Nat → Nat → Nat → Nat
  | 0, r, _ => r
  | k + 1, r, v =>
    if (r + 2 ^ k) * (r + 2 ^ k) ≤ v then isqrtBits k (r + 2 ^ k) v else isqrtBits k r v

/-- `isqrt64(v)`: the largest integer `r` with `r * r <= v`, for `v` below `2^64` (R7). Exact and over the integers: no
floating point (R124), no product that wraps. -/
def isqrt64 (v : Nat) : Nat := isqrtBits 32 0 v

end Sys2Proof.Machine
end

