-- ==== Sys2Proof/Machine/Flags.lean ====
section
/-! DEFINITION. The status flags: the cause codes, the read view `STATUS` and the three output wires. There are no
arithmetic condition codes in this hardware (10_state.md, after R22). -/

namespace Sys2Proof.Machine

/-- The four bits that `CAUSE` holds (60_exceptions.md R141). -/
def Cause.code : Cause → BitVec 4
  | .none => 0#4
  | .divZero => 1#4
  | .domain => 2#4
  | .illegalCmd => 3#4
  | .busyCmd => 4#4

/-- The read view `STATUS`: bits 63:8 zero, then `CAUSE[3:0]`, a zero bit, `FAULT`, `DONE`, `BUSY` (10_state.md R15,
20_memory.md R44). -/
def statusWord (b : Block) : Word :=
  0#56 ++ b.cause.code ++ 0#1 ++ BitVec.ofBool b.fault ++ BitVec.ofBool b.done ++ BitVec.ofBool b.busy

/-- The level outputs of the block (10_state.md R22, 20_memory.md R56). -/
structure StatusOutputs where
  busy : Bool
  done : Bool
  fault : Bool
  deriving DecidableEq, Repr

/-- The output wires carry the current flags; they are the same bits, not further state (R22). -/
def statusOutputs (b : Block) : StatusOutputs := ⟨b.busy, b.done, b.fault⟩

/-- Fault entry, the block's one way of taking an exception: `raise Fault(c)` (60_exceptions.md R146). It sets `FAULT` and
`CAUSE`, clears `BUSY` and `DONE`, and changes nothing else: no vector, no saved state, no mode (R151). -/
def raiseFault (c : Cause) (b : Block) : Block :=
  { b with fault := true, cause := c, busy := false, done := false }

/-- The flags at completion: `BUSY <- 0`, `DONE <- 1` (30_encoding.md R67). -/
def finish (b : Block) : Block := { b with busy := false, done := true }

end Sys2Proof.Machine
end

