-- ==== Sys2Proof/Machine/Operands.lean ====
section
/-! DEFINITION. Operands and registers: the port map (20_memory.md R44), the read of one port index (R42), and the check
of a command's operands (30_encoding.md R64). -/

namespace Sys2Proof.Machine

/-- The index of a named register (R44). -/
def regIndex : Reg → Index
  | .cmd => 0x00#6
  | .status => 0x01#6
  | .opa => 0x02#6
  | .opb => 0x03#6
  | .opm => 0x04#6
  | .res => 0x05#6
  | .fcnt => 0x06#6
  | .fp i => 0x10#6 + BitVec.ofNat 6 i
  | .fe i => 0x20#6 + BitVec.ofNat 6 i

/-- The register at an index; `none` for a reserved index (R44). -/
def regAt (idx : Index) : Option Reg :=
  if idx = 0x00#6 then some .cmd
  else if idx = 0x01#6 then some .status
  else if idx = 0x02#6 then some .opa
  else if idx = 0x03#6 then some .opb
  else if idx = 0x04#6 then some .opm
  else if idx = 0x05#6 then some .res
  else if idx = 0x06#6 then some .fcnt
  else if 0x10#6 ≤ idx ∧ idx ≤ 0x1E#6 then some (.fp (idx - 0x10#6).toNat)
  else if 0x20#6 ≤ idx ∧ idx ≤ 0x2E#6 then some (.fe (idx - 0x20#6).toNat)
  else none

/-- The value of a named register as the port shows it, the column "Read returns" of R44: `CMD` reads `zext_64(OPC)`
(10_state.md R14), `FCNT` reads `zext_64(FCNT)` (R21). A factor-file name outside 0 to 14 is no register and reads 0. -/
def readReg (b : Block) : Reg → Word
  | .cmd => b.opc.setWidth 64
  | .status => statusWord b
  | .opa => b.opa
  | .opb => b.opb
  | .opm => b.opm
  | .res => b.res
  | .fcnt => b.fcnt.setWidth 64
  | .fp i => b.fp[i]?.getD 0#64
  | .fe i => b.fe[i]?.getD 0#64

/-- `PortRead(idx)`: the value returned. A reserved index reads 0 (R42, R45). It changes no state, so it is a function of
the block alone. -/
def portRead (idx : Index) (b : Block) : Word :=
  match regAt idx with
  | some r => readReg b r
  | none => 0#64

/-- The operand check of a command write: the fault it raises on operands `a` (in `OPA`) and `m` (in `OPM`), if any
(30_encoding.md R64, last two tests; 60_exceptions.md R142, R143). Registers a command ignores are not looked at (R11, R61).
On the latches `LA`, `LM` it says whether the engine's function is inside its domain (10_state.md R30 item 4). -/
def operandFault (i : Instr) (a m : Word) : Option Cause :=
  match i with
  | .modsq => if m = 0#64 then some .divZero else none
  | .modpow => if m = 0#64 then some .divZero else none
  | .isprime => if a < 2#64 then some .domain else none
  | .factor => none

end Sys2Proof.Machine
end

