-- ==== Sys2Proof/Machine/Ops.lean ====
section
/-! DEFINITION. The named operations on the block: acceptance, the command write, the port write, reset, completion, and
the shape that the four meanings share. Fault entry, the taking of an exception, is `raiseFault` in Flags.lean; the only
return from a fault is `resetEvent` here. -/

namespace Sys2Proof.Machine

/-- The reset event: every item of architectural state becomes zero in one step (70_reset_and_hazards.md R170). It abandons
a running command (R171) and is the only exit from the faulted state (60_exceptions.md R149). -/
def resetEvent (_ : Block) : Block := Block.reset

/-- Acceptance `accept(op)` (30_encoding.md R66): name the command, latch all three operands, set `BUSY`, clear `DONE`. -/
def accept (i : Instr) (b : Block) : Block :=
  { b with opc := opcodeOf i, la := b.opa, lb := b.opb, lm := b.opm, busy := true, done := false }

/-- The first two tests of every command write (R64, 60_exceptions.md R145): a faulted block ignores it, a busy block takes
`BUSY_CMD` and abandons its command (R147). Otherwise `idle` says what happens. -/
def commandWrite (idle : Block → Block) (b : Block) : Block :=
  if b.fault then b
  else if b.busy then raiseFault .busyCmd b
  else idle b

/-- What a legal command does to a block that is neither faulted nor busy: the fault of its operand check, or acceptance
(R64). -/
def checkAndAccept (i : Instr) (b : Block) : Block :=
  match operandFault i b.opa b.opm with
  | some c => raiseFault c b
  | none => accept i b

/-- The command write of a legal command word (R64). -/
def issue (i : Instr) (b : Block) : Block := commandWrite (checkAndAccept i) b

/-- The command write of an illegal word (R64, R65). The word is not recorded anywhere (60_exceptions.md R144). -/
def rejectWord (b : Block) : Block := commandWrite (raiseFault .illegalCmd) b

/-- The command write `PortWrite(0x00, data)` (R64). -/
def commandWord (data : Word) (b : Block) : Block :=
  match decode data with
  | .instr i => issue i b
  | .reject _ => rejectWord b

/-- `PortWrite(idx, data)` (20_memory.md R43): a command at index 0x00; an operand register while `FAULT = 0`; every other
index, read-only or reserved, is ignored (R45). -/
def portWrite (idx : Index) (data : Word) (b : Block) : Block :=
  if idx = regIndex .cmd then commandWord data b
  else if b.fault then b
  else if idx = regIndex .opa then { b with opa := data }
  else if idx = regIndex .opb then { b with opb := data }
  else if idx = regIndex .opm then { b with opm := data }
  else b

/-- `RES <- v` (10_state.md R13). -/
def setRes (v : Word) (b : Block) : Block := { b with res := v }

/-- The number in slot `i` of one column of a factor list; 0 beyond the list's end (43_factor.md R120). -/
def factorSlot (column : List Nat) (i : Nat) : Word := BitVec.ofNat 64 (column[i]?.getD 0)

/-- `(FCNT, FP[0..14], FE[0..14]) <- out`: the pairs in order, and zero in the entries from `FCNT` on (43_factor.md R120,
10_state.md R20). -/
def setFactors (out : List (Nat × Nat)) (b : Block) : Block :=
  { b with
    fcnt := BitVec.ofNat 4 out.length
    fp := Vector.ofFn fun i => factorSlot (out.map Prod.fst) i
    fe := Vector.ofFn fun i => factorSlot (out.map Prod.snd) i }

/-- The engine's step for command `i`, `result` being what it writes (30_encoding.md R67). It is enabled exactly when
`BUSY = 1` and `OPC` is `i`'s opcode. With `BUSY = 0` the engine has no step (R67); with another command's opcode it has no
step for `i`, and that nothing changes then is the model's choice (notes/assumptions/4.md). On latches that R30 item 4
excludes the spec gives the functions no value, and the model stops (notes/assumptions/5.md). -/
def completion (i : Instr) (result : Block → Block) (s : State) : Host.Outcome State Fault Refusal :=
  if s.block.busy = true ∧ s.block.opc = opcodeOf i then
    match operandFault i s.block.la s.block.lm with
    | none => .next { s with block := finish (result s.block) }
    | some _ => .fault .latchesOutsideDomain
  else .next s

/-- The meaning of a command, in its two phases (notes/assumptions/4.md): on the host's turn the command write (R64), on the
engine's turn the completion (R67). -/
def commandStep (i : Instr) (result : Block → Block) (s : State) : Host.Outcome State Fault Refusal :=
  match s.turn with
  | .host => .next { s with block := issue i s.block }
  | .engine => completion i result s

end Sys2Proof.Machine
end

