-- ==== Sys2Proof/Machine/Factorizer.lean ====
section
/-! DEFINITION. The Factorizer family: FACTOR (43_factor.md). The scratch `rem`, `div`, `bound`, `cnt` is held in natural
numbers: 00_scope.md R5 makes pseudocode arithmetic integer arithmetic, and by R133 no value leaves 64 bits
(notes/assumptions/9.md). -/

namespace Sys2Proof.Machine

/-- The value left to factor and the pairs pushed so far (R120, R122). -/
structure FactorWork where
  rem : Nat
  out : List (Nat × Nat)
  deriving DecidableEq, Repr

/-- The inner loop `while rem mod p == 0`, counting in `cnt`; 64 rounds are enough for a value below `2^64` (R130). -/
def dividePower (p : Nat) : Nat → Nat → Nat → Nat × Nat
  | 0, rem, cnt => (rem, cnt)
  | fuel + 1, rem, cnt =>
    if rem % p = 0 then dividePower p fuel (rem / p) (cnt + 1) else (rem, cnt)

/-- `if cnt > 0: push(p, cnt)` (R122). -/
def pushPower (p cnt : Nat) (out : List (Nat × Nat)) : List (Nat × Nat) :=
  if cnt > 0 then out ++ [(p, cnt)] else out

/-- Divide out the whole power of `p` and record it (R122, R125, R126). -/
def removeFactor (p : Nat) (work : FactorWork) : FactorWork :=
  let divided := dividePower p 64 work.rem 0
  ⟨divided.1, pushPower p divided.2 work.out⟩

/-- Stage 1, the factor 2, by one trailing-zero count and one shift (R123). -/
def removeTwos (n : Word) : FactorWork :=
  let cnt := ctz64 n
  ⟨(n >>> cnt).toNat, pushPower 2 cnt []⟩

/-- Stage 3, the wheel walk (R126 to R128): try `div` while `div <= bound`; recompute the bound when a factor was removed;
go on by the wheel's increment, its index counting modulo 8. Each round raises `div` by at least 2, so as many rounds as
the first bound are enough (R130; notes/assumptions/10.md). -/
def wheelWalk : Nat → Nat → Fin 8 → Nat → FactorWork → FactorWork
  | 0, _, _, _, work => work
  | fuel + 1, div, w, bound, work =>
    if div ≤ bound then
      if work.rem % div = 0 then
        wheelWalk fuel (div + Config.wheel[w]) (w + 1) (isqrt64 (removeFactor div work).rem) (removeFactor div work)
      else wheelWalk fuel (div + Config.wheel[w]) (w + 1) bound work
    else work

/-- The walk from its first candidate, with its first bound (R126, R127). -/
def walkFromStart (work : FactorWork) : FactorWork :=
  wheelWalk (isqrt64 work.rem) Config.wheelStart 0 (isqrt64 work.rem) work

/-- `factor(n)`: empty for `n <= 1` (R121); else 2, then 3, then 5 (R123, R125), the walk, and what remains above 1 as the
last prime (R128). -/
def factor (n : Word) : List (Nat × Nat) :=
  if n ≤ 1#64 then []
  else
    let work := walkFromStart (removeFactor 5 (removeFactor 3 (removeTwos n)))
    pushPower work.rem (if work.rem > 1 then 1 else 0) work.out

/-- What FACTOR's completion writes (R120). `RES` is not written. -/
def factorResult (b : Block) : Block := setFactors (factor b.la) b

/-- FACTOR. -/
def execFactor (s : State) : Host.Outcome State Fault Refusal := commandStep .factor factorResult s

end Sys2Proof.Machine
end

