-- ==== Sys2Proof/Machine/Modular.lean ====
section
/-! DEFINITION. The ModularArithmetic family: MODSQ (40_modsq.md) and MODPOW (41_modpow.md). -/

namespace Sys2Proof.Machine

/-- `modsq(x, m)`: the square formed in 128 bits, then the remainder (R80, R81). Ordinary residues, any modulus from 1 on:
no Montgomery form (R85). -/
def modsq (x m : Word) : Word :=
  let wide : Wide := x.setWidth 128 * x.setWidth 128
  (wide % m.setWidth 128).setWidth 64

/-- What MODSQ's completion writes (R80). -/
def modsqResult (b : Block) : Block := setRes (modsq b.la b.lm) b

/-- MODSQ. -/
def execModsq (s : State) : Host.Outcome State Fault Refusal := commandStep .modsq modsqResult s

/-- The loop of R90 with its scratch `acc`, `b`, `e`: it stops at `e = 0`, and 64 iterations are enough (R96). -/
def modpowLoop (m : Word) : Nat → Word → Word → Word → Word
  | 0, acc, _, _ => acc
  | fuel + 1, acc, b, e =>
    if e = 0#64 then acc
    else modpowLoop m fuel (if e.getLsbD 0 then mulmod acc b m else acc) (mulmod b b m) (e >>> 1)

/-- `modpow(base, exponent, m)` (R90). The accumulator starts at the literal 1, which exponent 0 returns unreduced (R92). -/
def modpow (base exponent m : Word) : Word := modpowLoop m 64 1#64 base exponent

/-- What MODPOW's completion writes (R90). -/
def modpowResult (b : Block) : Block := setRes (modpow b.la b.lb b.lm) b

/-- MODPOW. -/
def execModpow (s : State) : Host.Outcome State Fault Refusal := commandStep .modpow modpowResult s

end Sys2Proof.Machine
end

