-- ==== Sys2Proof/Machine/Primality.lean ====
section
/-! DEFINITION. The PrimalityTester family: ISPRIME (42_isprime.md). -/

namespace Sys2Proof.Machine

/-- The repeated squaring of R104: at most `count` squarings of `x` modulo `n`, `true` as soon as one gives `n - 1`. -/
def squaringReaches (n : Word) : Nat → Word → Bool
  | 0, _ => false
  | count + 1, x => if modsq x n = n - 1#64 then true else squaringReaches n count (modsq x n)

/-- One witness that does not divide `n` is satisfied: `x = a^d mod n` is 1 or `n - 1` (R103), or the `s - 1` squarings
reach `n - 1` (R104). -/
def witnessSatisfied (n d : Word) (s : Nat) (a : Word) : Bool :=
  let x := modpow a d n
  if x = 1#64 ∨ x = n - 1#64 then true else squaringReaches n (s - 1) x

/-- The witness loop: for each witness in order the divisibility check first (R102), then the test; the first that is not
satisfied ends it with `false`, and past the last one the answer is `true` (R105). -/
def witnessLoop (n d : Word) (s : Nat) : List Word → Bool
  | [] => true
  | a :: rest =>
    if n % a = 0#64 then n == a
    else if witnessSatisfied n d s a then witnessLoop n d s rest
    else false

/-- `isprime(n)`: decompose `n - 1 = d * 2^s` with `d` odd (R101), then the witnesses (R100). The spec evaluates it only
with `n >= 2`. -/
def isprime (n : Word) : Bool :=
  let s := ctz64 (n - 1#64)
  let d := (n - 1#64) >>> s
  witnessLoop n d s Config.witnesses

/-- What ISPRIME's completion writes: 1 for prime, 0 for composite (R100, 10_state.md R13). -/
def isprimeResult (b : Block) : Block := setRes (if isprime b.la then 1#64 else 0#64) b

/-- ISPRIME. -/
def execIsprime (s : State) : Host.Outcome State Fault Refusal := commandStep .isprime isprimeResult s

end Sys2Proof.Machine
end

