-- ==== Sys2Proof/Machine/Dispatch.lean ====
section
/-! DEFINITION. One arm per command: the meaning of each. -/

namespace Sys2Proof.Machine

def exec (i : Instr) (s : State) : Host.Outcome State Fault Refusal :=
  match i with
  | .modsq => Sys2Proof.Machine.execModsq s
  | .modpow => Sys2Proof.Machine.execModpow s
  | .isprime => Sys2Proof.Machine.execIsprime s
  | .factor => Sys2Proof.Machine.execFactor s

end Sys2Proof.Machine
end

