-- ==== Sys2Proof/Machine/Agents.lean ====
section
/-! DEFINITION. The two agents: what the host does with its next line, what the engine does on its turn, and whose turn
comes after (00_scope.md R8, R9). Also the host notation of 30_encoding.md R69 and R70. -/

namespace Sys2Proof.Machine

/-- Whose turn comes next: the schedule's next agent. When the schedule has run out, the engine if it has a step
(`BUSY = 1`), so that a completion is never put off for ever (70_reset_and_hazards.md R178), and the host otherwise
(DESIGN CHOICE, notes/assumptions/2.md). -/
def passTurn (s : State) : State :=
  match s.schedule with
  | next :: later => { s with turn := next, schedule := later }
  | [] => { s with turn := if s.block.busy then .engine else .host }

/-- A step's outcome with the turn passed on. -/
def passOutcome : Host.Outcome State Fault Refusal → Host.Outcome State Fault Refusal
  | .next s => .next (passTurn s)
  | .fault f => .fault f
  | .refused r => .refused r

/-- `PortRead(idx)`: the host receives the value and the block does not change (20_memory.md R42). -/
def performRead (idx : Index) (s : State) : State :=
  { s with reads := ⟨idx, portRead idx s.block⟩ :: s.reads }

/-- The reads `RD FP[i]`, `RD FE[i]` for `i` in `0..k-1` (R70). -/
def pairReads (k : Nat) : List HostOp :=
  (List.range k).flatMap fun i => [.read (regIndex (.fp i)), .read (regIndex (.fe i))]

/-- One poll of `WAIT`: `RD STATUS -> s`, and the line stays while `s[0] = 1` (R70). -/
def pollStatus (s : State) : State :=
  let polled := performRead (regIndex .status) s
  if (portRead (regIndex .status) s.block).getLsbD 0 then { polled with program := .wait :: polled.program } else polled

/-- `RD FCNT -> k`, and the reads of the `k` pairs come next (R70). -/
def startPairReads (s : State) : State :=
  let polled := performRead (regIndex .fcnt) s
  { polled with program := pairReads (portRead (regIndex .fcnt) s.block).toNat ++ polled.program }

/-- The command write of word `data` (R64): a legal word runs its command; an illegal one is rejected (R65). -/
def performCommand (data : Word) (s : State) : Host.Outcome State Fault Refusal :=
  match decode data with
  | .instr i => exec i s
  | .reject _ => .next { s with block := rejectWord s.block }

/-- One host line, already taken off the program. -/
def performOp (op : HostOp) (s : State) : Host.Outcome State Fault Refusal :=
  match op with
  | .write idx data =>
    if idx = regIndex .cmd then performCommand data s else .next { s with block := portWrite idx data s.block }
  | .read idx => .next (performRead idx s)
  | .wait => .next (pollStatus s)
  | .readFactors => .next (startPairReads s)
  | .reset => .next { s with block := resetEvent s.block }

/-- The host's turn: its next line; with none left it does nothing (notes/assumptions/15.md). -/
def hostTurn (s : State) : Host.Outcome State Fault Refusal :=
  match s.program with
  | [] => .next s
  | op :: rest => performOp op { s with program := rest }

/-- The engine's turn: the completion of the command that `OPC` names, while `BUSY = 1`; otherwise it has no step (R67,
60_exceptions.md R148). -/
def engineTurn (s : State) : Host.Outcome State Fault Refusal :=
  if s.block.busy then
    match commandOf s.block.opc with
    | some i => exec i s
    | none => .fault .opcNamesNoCommand
  else .next s

/-- The agent on turn takes its step. -/
def agentTurn (s : State) : Host.Outcome State Fault Refusal :=
  match s.turn with
  | .host => hostTurn s
  | .engine => engineTurn s

/-- `WR reg, value` (R69). -/
def lineWr (r : Reg) (v : Word) : HostOp := .write (regIndex r) v

/-- `RD reg` (R69). -/
def lineRd (r : Reg) : HostOp := .read (regIndex r)

/-- The lines `MODSQ`, `MODPOW`, `ISPRIME`, `FACTOR`: `WR CMD` with the command's word (R69). -/
def lineCommand (i : Instr) : HostOp := lineWr .cmd (encode i)

/-- The pseudo-instruction `modsq x, m` (R70). -/
def linesModsq (x m : Word) : List HostOp :=
  [lineWr .opa x, lineWr .opm m, lineCommand .modsq, .wait, lineRd .res]

/-- The pseudo-instruction `modpow b, e, m` (R70). -/
def linesModpow (b e m : Word) : List HostOp :=
  [lineWr .opa b, lineWr .opb e, lineWr .opm m, lineCommand .modpow, .wait, lineRd .res]

/-- The pseudo-instruction `isprime n` (R70). -/
def linesIsprime (n : Word) : List HostOp :=
  [lineWr .opa n, lineCommand .isprime, .wait, lineRd .res]

/-- The pseudo-instruction `factorize n` (R70). -/
def linesFactorize (n : Word) : List HostOp :=
  [lineWr .opa n, lineCommand .factor, .wait, .readFactors]

/-- The host line that issues the command word whose number is `w`, on `nbits` table bits (bits above them are 0). -/
def fetchLine (nbits w : Nat) : HostOp := .write (regIndex .cmd) (BitVec.ofNat 64 (w % 2 ^ nbits))

end Sys2Proof.Machine
end

