-- ==== Sys2Proof/Machine/Step.lean ====
section
/-! DEFINITION. One step of the machine, and the placing of a command word where the next step takes it from. -/

namespace Sys2Proof.Machine

/-- One step: the agent on turn acts, then the turn passes on (00_scope.md R8, R9). -/
def step (s : State) : Host.Outcome State Fault Refusal := passOutcome (agentTurn s)

/-- `s` with the command word `w` about to be written to `CMD`: the host has the next turn and that write is its next line.
The block fetches nothing (10_state.md R12, 20_memory.md R54), so this is the whole of "fetching" (notes/assumptions/3.md). -/
def State.withFetchWord (s : State) (nbits w : Nat) : State :=
  { s with turn := .host, program := fetchLine nbits w :: s.program }

end Sys2Proof.Machine
end

