-- ==== Sys2Proof/Safety.lean ====
section
/-! DEFINITION. What counts as a sound state and as a good end, in the terms that claims use. -/

namespace Sys2Proof.Machine

/-- The invariants of the block, items 1 to 5 of 10_state.md R30 and the range of `OPC` of R14. (Item 6 speaks of the
command that completed last; what it needs is that only three completions and reset write `RES`, which is a claim about
steps.) -/
structure Block.Inv (b : Block) : Prop where
  /-- Item 1: `BUSY` and `DONE` are never both 1. -/
  busy_or_done : ¬ (b.busy = true ∧ b.done = true)
  /-- Item 2: a faulted block is neither busy nor done. -/
  fault_stops : b.fault = true → b.busy = false ∧ b.done = false
  /-- Item 3: `CAUSE = 0` exactly when `FAULT = 0`. -/
  cause_iff : b.cause = .none ↔ b.fault = false
  /-- Item 4, first half: a busy block runs one of the four commands. -/
  busy_opc : b.busy = true → b.opc = 1#8 ∨ b.opc = 2#8 ∨ b.opc = 3#8 ∨ b.opc = 4#8
  /-- Item 4, MODSQ and MODPOW: the latched modulus is at least 1. -/
  busy_modulus : b.busy = true → b.opc = 1#8 ∨ b.opc = 2#8 → 1 ≤ b.lm.toNat
  /-- Item 4, ISPRIME: the latched candidate is at least 2. -/
  busy_candidate : b.busy = true → b.opc = 3#8 → 2 ≤ b.la.toNat
  /-- Item 5: a valid pair has an exponent of at least 1 and a prime. -/
  pair_valid : ∀ i : Fin 15, i.val < b.fcnt.toNat → 1 ≤ b.fe[i].toNat ∧ b.fp[i].toNat.Prime
  /-- Item 5: the primes of the valid pairs rise strictly. -/
  pair_rising : ∀ i j : Fin 15, j.val = i.val + 1 → j.val < b.fcnt.toNat → b.fp[i].toNat < b.fp[j].toNat
  /-- Item 5: the entries from `FCNT` on are zero. -/
  pair_cleared : ∀ i : Fin 15, b.fcnt.toNat ≤ i.val → b.fp[i] = 0#64 ∧ b.fe[i] = 0#64
  /-- R14: `OPC` is 0x00 or one of the four opcodes. -/
  opc_range : b.opc = 0#8 ∨ b.opc = 1#8 ∨ b.opc = 2#8 ∨ b.opc = 3#8 ∨ b.opc = 4#8

/-- The good end of a run: every line of the host program performed, `BUSY = 0` and `FAULT = 0` (70_reset_and_hazards.md
R181). A faulted state is never one (60_exceptions.md R148). -/
def goodEnd (s : State) : Bool := s.program.isEmpty && !s.block.busy && !s.block.fault

end Sys2Proof.Machine
end

