-- ==== Sys2Proof/Certificates/Slice0/Obligations.lean ====
section
/-! DEFINITION. The statements for the provers, one `def Obligations.<Name> : Prop` each, and the few notions they are
stated with. Rules R<n> are those of spec/. -/

namespace Sys2Proof.Claims

/-- The opcode byte of a command, from the opcode map (30_encoding.md R63). -/
def opcodeByte : Instr → Opcode
  | .modsq => 1#8
  | .modpow => 2#8
  | .isprime => 3#8
  | .factor => 4#8

/-- The operand check of a command write passes (30_encoding.md R64): a modulus of at least 1 for MODSQ and MODPOW, a
candidate of at least 2 for ISPRIME, anything for FACTOR. -/
def operandsOk : Instr → Machine.Block → Prop
  | .modsq, b => 1 ≤ b.opm.toNat
  | .modpow, b => 1 ≤ b.opm.toNat
  | .isprime, b => 2 ≤ b.opa.toNat
  | .factor, _ => True

/-- Fault entry with cause `c`, written out (60_exceptions.md R146). -/
def faulted (c : Machine.Cause) (b : Machine.Block) : Machine.Block :=
  { b with fault := true, cause := c, busy := false, done := false }

/-- Acceptance of command `i`, written out (30_encoding.md R66). -/
def accepted (i : Instr) (b : Machine.Block) : Machine.Block :=
  { b with opc := opcodeByte i, la := b.opa, lb := b.opb, lm := b.opm, busy := true, done := false }

/-- The command write, written out as the pseudocode of 30_encoding.md R64 has it. -/
def commandWritten (data : Word) (b : Machine.Block) : Machine.Block :=
  if b.fault = true then b
  else if b.busy = true then faulted .busyCmd b
  else if data.toNat / 256 ≠ 0 ∨ data.toNat % 256 ∉ [1, 2, 3, 4] then faulted .illegalCmd b
  else if data.toNat % 256 ∈ [1, 2] ∧ b.opm.toNat = 0 then faulted .divZero b
  else if data.toNat % 256 = 3 ∧ b.opa.toNat < 2 then faulted .domain b
  else { b with opc := data.setWidth 8, la := b.opa, lb := b.opb, lm := b.opm, busy := true, done := false }

/-- `n` is a strong probable prime to base `a`, where `n - 1 = d * 2^s` (42_isprime.md R103, R104). -/
def strongProbablePrime (n d s a : Nat) : Prop :=
  a ^ d % n = 1 ∨ ∃ j < s, a ^ (d * 2 ^ j) % n = n - 1

/-- The witness set (00_scope.md R4). -/
def witnessSet : List Nat := [2, 3, 5, 7, 11, 13, 17, 19, 23, 29, 31, 37]

/-- The verdict "prime" of the Miller-Rabin test over the witness set, in the integers: `n` is a witness, or no witness
divides it and it is a strong probable prime to every witness (42_isprime.md R101 to R105). -/
def millerRabinPrime (n : Nat) : Prop :=
  ∀ d s, d % 2 = 1 → n - 1 = d * 2 ^ s →
    n ∈ witnessSet ∨ ∀ a ∈ witnessSet, ¬ a ∣ n ∧ strongProbablePrime n d s a

/-- The distinct primes dividing `n`, rising. -/
def primesOf (n : Nat) : List Nat := n.primeFactors.sort (· ≤ ·)

/-- The realisation of MODPOW that runs a fixed number of iterations and never tests `e` (41_modpow.md R94). -/
def modpowFixed (m : Word) : Nat → Word → Word → Word → Word
  | 0, acc, _, _ => acc
  | k + 1, acc, b, e =>
    modpowFixed m k (if e.getLsbD 0 then Machine.mulmod acc b m else acc) (Machine.mulmod b b m) (e >>> 1)

/-- The value that the law of 41_modpow.md R91 gives for the scratch `acc` after `k` iterations. -/
def modpowAcc (base exponent m : Word) (k : Nat) : Word :=
  if exponent.toNat % 2 ^ k = 0 then 1#64 else BitVec.ofNat 64 (base.toNat ^ (exponent.toNat % 2 ^ k) % m.toNat)

/-- The value that the law of 41_modpow.md R91 gives for the scratch `b` after `k` iterations. -/
def modpowBase (base m : Word) (k : Nat) : Word :=
  if k = 0 then base else BitVec.ofNat 64 (base.toNat ^ 2 ^ k % m.toNat)

/-- The divisor candidate and the wheel index after `k` steps of the wheel (43_factor.md R126). -/
def wheelAt : Nat → Nat × Fin 8
  | 0 => (7, 0)
  | k + 1 => ((wheelAt k).1 + Config.wheel[(wheelAt k).2], (wheelAt k).2 + 1)

/-- The realisation of the wheel walk that compares `div * div <= rem` instead of keeping a bound (43_factor.md R136). -/
def productWalk : Nat → Nat → Fin 8 → Machine.FactorWork → Machine.FactorWork
  | 0, _, _, work => work
  | fuel + 1, div, w, work =>
    if div * div ≤ work.rem then
      productWalk fuel (div + Config.wheel[w]) (w + 1) (Machine.removeFactor div work)
    else work

/-- What `DONE = 1` tells the host: the result registers of the command that `OPC` names hold that command's result, as a
function of the latches (10_state.md R17). -/
def resultIsCurrent (b : Machine.Block) : Prop :=
  b.done = true →
    (b.opc = 1#8 → b.res.toNat = b.la.toNat ^ 2 % b.lm.toNat) ∧
    (b.opc = 2#8 → b.res.toNat = if b.lb = 0#64 then 1 else b.la.toNat ^ b.lb.toNat % b.lm.toNat) ∧
    (b.opc = 3#8 → (b.res = 1#64 ∨ b.res = 0#64) ∧ (b.res = 1#64 ↔ millerRabinPrime b.la.toNat)) ∧
    (b.opc = 4#8 → b.fcnt.toNat = (primesOf b.la.toNat).length ∧
      ∀ k : Fin 15, b.fp[k].toNat = (primesOf b.la.toNat).getD k 0 ∧
        b.fe[k].toNat = b.la.toNat.factorization ((primesOf b.la.toNat).getD k 0))

end Sys2Proof.Claims

open Sys2Proof Sys2Proof.Machine Sys2Proof.Claims

/-! ### Encoding -/

/-- R63: the four command words, and every word that is not one of them decodes to no command. -/
def Obligations.DecodeMatchesWholeWord : Prop :=
  encode .modsq = 0x0000000000000001#64 ∧ encode .modpow = 0x0000000000000002#64 ∧
  encode .isprime = 0x0000000000000003#64 ∧ encode .factor = 0x0000000000000004#64 ∧
  ∀ (w : Word) (i : Instr), decode w = .instr i ↔ w = encode i

/-- Words written out from 30_encoding.md R63 and R65 (vectors I8 to I12) decode as the spec says. -/
def Obligations.WrittenOutWordsDecode : Prop :=
  decode 0x0000000000000001#64 = .instr .modsq ∧ decode 0x0000000000000002#64 = .instr .modpow ∧
  decode 0x0000000000000003#64 = .instr .isprime ∧ decode 0x0000000000000004#64 = .instr .factor ∧
  decode 0x0000000000000000#64 = .reject .illegalOpcode ∧ decode 0x0000000000000005#64 = .reject .illegalOpcode ∧
  decode 0x0000000000000101#64 = .reject .reservedBits ∧ decode 0x8000000000000001#64 = .reject .reservedBits

/-- The table's word of a command, placed by `withFetchWord`, is the command the next step runs. How a word comes to be the
next line is the model's choice (notes/assumptions/3.md). -/
def Obligations.PlacedWordRunsItsCommand : Prop :=
  ∀ (i : Instr) (s : State),
    decodeTableWord 64 (encode i).toNat = some i ∧
    step (s.withFetchWord 64 (encode i).toNat) = passOutcome (exec i { s with turn := .host })

/-! ### A step runs the decoded instruction -/

/-- On the host's turn, a write to `CMD` of a word that decodes to `i` runs `exec i` with that line taken off the program,
and then the turn passes. -/
def Obligations.StepRunsTheCommandWritten : Prop :=
  ∀ (s : State) (w : Word) (i : Instr) (rest : List HostOp),
    s.turn = .host → s.program = .write 0#6 w :: rest → decode w = .instr i → i.wf = true →
    step s = passOutcome (exec i { s with program := rest })

/-- On the engine's turn, while `BUSY = 1`, the step runs `exec` of the command that `OPC` names, and then the turn
passes. -/
def Obligations.StepRunsTheCommandRunning : Prop :=
  ∀ (s : State) (i : Instr),
    s.turn = .engine → s.block.busy = true → s.block.opc = opcodeByte i → step s = passOutcome (exec i s)

/-- What a step adds around `exec`: the next agent of the schedule has the next turn, and when the schedule has run out the
engine has it exactly if `BUSY = 1`. The schedule is the model's choice (notes/assumptions/1.md, 2.md). -/
def Obligations.TurnPassesByScheduleThenFairly : Prop :=
  ∀ (s t : State), passOutcome (.next s) = .next t →
    t.block = s.block ∧ t.program = s.program ∧ t.reads = s.reads ∧ t.schedule = s.schedule.tail ∧
    (∀ a rest, s.schedule = a :: rest → t.turn = a) ∧
    (s.schedule = [] → (t.turn = .engine ↔ s.block.busy = true))

/-! ### The register port -/

/-- R42 with the column "Read returns" of R44: the value of every index, and a read step that gives the host that value and
changes no block state. -/
def Obligations.PortReadFollowsTheMap : Prop :=
  (∀ b : Block,
    portRead 0x00#6 b = b.opc.setWidth 64 ∧ portRead 0x01#6 b = statusWord b ∧ portRead 0x02#6 b = b.opa ∧
    portRead 0x03#6 b = b.opb ∧ portRead 0x04#6 b = b.opm ∧ portRead 0x05#6 b = b.res ∧
    portRead 0x06#6 b = b.fcnt.setWidth 64 ∧
    (∀ k : Fin 15, portRead (BitVec.ofNat 6 (0x10 + k)) b = b.fp[k] ∧ portRead (BitVec.ofNat 6 (0x20 + k)) b = b.fe[k]) ∧
    (∀ idx : Index, (0x07 ≤ idx.toNat ∧ idx.toNat ≤ 0x0F) ∨ idx.toNat = 0x1F ∨ 0x2F ≤ idx.toNat → portRead idx b = 0#64)) ∧
  ∀ (s : State) (idx : Index) (rest : List HostOp), s.turn = .host → s.program = .read idx :: rest →
    step s = .next (passTurn { s with program := rest, reads := ⟨idx, portRead idx s.block⟩ :: s.reads })

/-- R43: a host write at any index, as its pseudocode decides it; index 0x00 is the command write of R64, written out in
`commandWritten`; while `FAULT = 1` no write of any index changes anything. -/
def Obligations.PortWriteFollowsTheMap : Prop :=
  ∀ (s : State) (idx : Index) (data : Word) (rest : List HostOp), s.turn = .host → s.program = .write idx data :: rest →
    ∃ b, step s = .next (passTurn { s with program := rest, block := b }) ∧ b = portWrite idx data s.block ∧
      (s.block.fault = true → b = s.block) ∧
      (idx = 0x00#6 → b = commandWritten data s.block) ∧
      (s.block.fault = false →
        (idx = 0x02#6 → b = { s.block with opa := data }) ∧
        (idx = 0x03#6 → b = { s.block with opb := data }) ∧
        (idx = 0x04#6 → b = { s.block with opm := data }) ∧
        (idx = 0x01#6 ∨ 0x05 ≤ idx.toNat → b = s.block))

/-- R15 and R141: the bits of `STATUS`. -/
def Obligations.StatusWordLayout : Prop :=
  ∀ b : Block,
    (statusWord b).getLsbD 0 = b.busy ∧ (statusWord b).getLsbD 1 = b.done ∧ (statusWord b).getLsbD 2 = b.fault ∧
    (statusWord b).getLsbD 3 = false ∧
    (statusWord b).toNat / 16 = (match b.cause with
      | .none => 0 | .divZero => 1 | .domain => 2 | .illegalCmd => 3 | .busyCmd => 4)

/-! ### The command write -/

/-- R64: the tests of a command write in their priority order, for every block and every word, the first that applies
deciding; with R146's fault entry and R66's acceptance written out. -/
def Obligations.CommandWriteDecidesInPriorityOrder : Prop :=
  ∀ (w : Word) (b : Block),
    (b.fault = true → portWrite 0#6 w b = b) ∧
    (b.fault = false → b.busy = true → portWrite 0#6 w b = faulted .busyCmd b) ∧
    (b.fault = false → b.busy = false →
      (w.toNat = 0 ∨ 5 ≤ w.toNat → portWrite 0#6 w b = faulted .illegalCmd b) ∧
      (w = 1#64 ∨ w = 2#64 → b.opm = 0#64 → portWrite 0#6 w b = faulted .divZero b) ∧
      (w = 3#64 → b.opa.toNat < 2 → portWrite 0#6 w b = faulted .domain b) ∧
      (∀ i, w.toNat = (opcodeByte i).toNat → operandsOk i b → portWrite 0#6 w b = accepted i b))

/-- R65 and R144: every word other than the four is illegal and, written to `CMD` of a block neither faulted nor busy,
takes `ILLEGAL_CMD`. -/
def Obligations.IllegalWordTakesIllegalCmd : Prop :=
  ∀ (s : State) (w : Word) (rest : List HostOp),
    s.turn = .host → s.program = .write 0#6 w :: rest → s.block.fault = false → s.block.busy = false →
    w.toNat / 256 ≠ 0 ∨ w.toNat % 256 ∉ [1, 2, 3, 4] →
    (∃ r, decode w = .reject r) ∧
    step s = .next (passTurn { s with program := rest, block := faulted .illegalCmd s.block })

/-- R66: each of the four commands, written with `FAULT = 0`, `BUSY = 0` and its operand check passed, is accepted. -/
def Obligations.CommandIsAccepted : Prop :=
  ∀ (i : Instr) (s : State),
    s.turn = .host → s.block.fault = false → s.block.busy = false → operandsOk i s.block →
    exec i s = .next { s with block := accepted i s.block }

/-- R142: MODSQ and MODPOW with `OPM = 0` take `DIV_ZERO` whatever `OPA` and `OPB` hold, and nothing is latched or written;
ISPRIME and FACTOR never raise it. -/
def Obligations.ZeroModulusTakesDivZero : Prop :=
  (∀ (i : Instr) (s : State), i = .modsq ∨ i = .modpow →
    s.turn = .host → s.block.fault = false → s.block.busy = false → s.block.opm = 0#64 →
    exec i s = .next { s with block := faulted .divZero s.block }) ∧
  (∀ (i : Instr) (s t : State), i = .isprime ∨ i = .factor →
    s.block.cause ≠ .divZero → exec i s = .next t → t.block.cause ≠ .divZero)

/-- R109: ISPRIME with `OPA` 0 or 1 takes `DOMAIN` at the command write, and `RES` is not written. -/
def Obligations.SmallCandidateTakesDomain : Prop :=
  ∀ s : State, s.turn = .host → s.block.fault = false → s.block.busy = false → s.block.opa.toNat < 2 →
    exec .isprime s = .next { s with block := faulted .domain s.block } ∧ (faulted .domain s.block).res = s.block.res

/-- R147: any word written to `CMD` while `BUSY = 1` takes `BUSY_CMD`; the running command is abandoned: from then on no
engine turn writes anything, and only reset revives the block. -/
def Obligations.BusyCommandWriteAbandons : Prop :=
  ∀ (s : State) (w : Word) (rest : List HostOp),
    s.turn = .host → s.program = .write 0#6 w :: rest → s.block.fault = false → s.block.busy = true →
    ∃ t, step s = .next t ∧ t.block = faulted .busyCmd s.block ∧
      (∀ u, u.turn = .engine → u.block = t.block → step u = .next (passTurn u)) ∧
      ∀ u v, u.block = t.block → step u = .next v →
        v.block = t.block ∨ (u.turn = .host ∧ ∃ lines, u.program = .reset :: lines)

/-- R148: while `FAULT = 1` every write changes nothing, reads work as usual, the engine has no step, the output `fault`
is 1, and the block changes only by reset. The invariant rules out a faulted block that is busy. -/
def Obligations.FaultedBlockLeavesOnlyByReset : Prop :=
  ∀ s t : State, s.block.Inv → s.block.fault = true → step s = .next t →
    (∀ idx data, portWrite idx data s.block = s.block) ∧ (statusOutputs s.block).fault = true ∧
    (s.turn = .engine → t = passTurn s) ∧
    (∀ idx rest, s.turn = .host → s.program = .read idx :: rest →
      t = passTurn { s with program := rest, reads := ⟨idx, portRead idx s.block⟩ :: s.reads }) ∧
    (t.block = s.block ∨ (s.turn = .host ∧ ∃ rest, s.program = .reset :: rest ∧ t.block = Block.reset))

/-- R140: only a host write to `CMD` raises a fault. -/
def Obligations.OnlyCommandWritesRaiseFaults : Prop :=
  ∀ s t : State, step s = .next t → s.block.fault = false → t.block.fault = true →
    s.turn = .host ∧ ∃ w rest, s.program = .write 0#6 w :: rest

/-- R146: fault entry, in the one step of the command write, sets `FAULT` and `CAUSE` (to one of the codes 1 to 4), clears
`BUSY` and `DONE`, and changes nothing else. -/
def Obligations.FaultEntryChangesFlagsOnly : Prop :=
  ∀ s t : State, step s = .next t → s.block.fault = false → t.block.fault = true →
    (s.turn = .host ∧ ∃ w rest, s.program = .write 0#6 w :: rest ∧ t.block = portWrite 0#6 w s.block) ∧
    t.block = { s.block with fault := true, cause := t.block.cause, busy := false, done := false } ∧
    1 ≤ (statusWord t.block).toNat / 16 ∧ (statusWord t.block).toNat / 16 ≤ 4

/-! ### Reset -/

/-- R170: the reset event, in any state, makes every item of state zero; after it every index reads 0 and the outputs are
0. The state of `State.reset` is such a state. -/
def Obligations.ResetZeroesEveryItem : Prop :=
  ∀ (s : State) (rest : List HostOp), s.turn = .host → s.program = .reset :: rest →
    ∃ b, step s = .next (passTurn { s with program := rest, block := b }) ∧ State.reset.block = b ∧
      b.opa = 0#64 ∧ b.opb = 0#64 ∧ b.opm = 0#64 ∧ b.res = 0#64 ∧ b.opc = 0#8 ∧ b.busy = false ∧ b.done = false ∧ b.fault = false ∧
      b.cause = .none ∧ b.fcnt = 0#4 ∧ (∀ k : Fin 15, b.fp[k] = 0#64 ∧ b.fe[k] = 0#64) ∧ b.la = 0#64 ∧ b.lb = 0#64 ∧ b.lm = 0#64 ∧
      (∀ idx, portRead idx b = 0#64) ∧ statusOutputs b = ⟨false, false, false⟩

/-! ### Completion: the result of each command -/

/-- R82 with the function of R80: MODSQ completes with the integer square modulo `LM`, a value in `[0, LM - 1]` that depends
on `LA` and `LM` only; nothing else but `BUSY` and `DONE` changes. -/
def Obligations.ModsqCompletes : Prop :=
  ∀ s : State, s.turn = .engine → s.block.busy = true → s.block.opc = 1#8 → s.block.lm ≠ 0#64 →
    ∃ r : Word, exec .modsq s = .next { s with block := { s.block with res := r, busy := false, done := true } } ∧
      r.toNat = s.block.la.toNat ^ 2 % s.block.lm.toNat ∧ r.toNat ≤ s.block.lm.toNat - 1 ∧
      (s.block.lm = 1#64 → r = 0#64)

/-- R93 and R92: MODPOW completes with `1` for exponent 0, whatever base and modulus, and otherwise with the integer power
modulo `LM`, a value in `[0, LM - 1]`; it depends on the latches only; nothing else but `BUSY` and `DONE` changes. -/
def Obligations.ModpowCompletes : Prop :=
  ∀ s : State, s.turn = .engine → s.block.busy = true → s.block.opc = 2#8 → s.block.lm ≠ 0#64 →
    ∃ r : Word, exec .modpow s = .next { s with block := { s.block with res := r, busy := false, done := true } } ∧
      (s.block.lb = 0#64 → r = 1#64) ∧
      (s.block.lb ≠ 0#64 →
        r.toNat = s.block.la.toNat ^ s.block.lb.toNat % s.block.lm.toNat ∧ r.toNat ≤ s.block.lm.toNat - 1 ∧
        (s.block.lm = 1#64 → r = 0#64))

/-- R100 to R105: ISPRIME completes with 1 or 0 in `RES`, 1 exactly when the Miller-Rabin test over the witness set, in the
integers, calls `LA` prime; nothing else but `BUSY` and `DONE` changes. -/
def Obligations.IsprimeCompletes : Prop :=
  ∀ s : State, s.turn = .engine → s.block.busy = true → s.block.opc = 3#8 → 2 ≤ s.block.la.toNat →
    ∃ r : Word, exec .isprime s = .next { s with block := { s.block with res := r, busy := false, done := true } } ∧
      (r = 1#64 ∨ r = 0#64) ∧ (r = 1#64 ↔ millerRabinPrime s.block.la.toNat)

/-- The half of R107 that the rules give: a prime `LA` is never reported composite. (That a composite is never reported
prime rests on the sufficiency of the witness set, which the spec takes as its document's assertion.) -/
def Obligations.IsprimeAcceptsEveryPrime : Prop :=
  ∀ s : State, s.turn = .engine → s.block.busy = true → s.block.opc = 3#8 → s.block.la.toNat.Prime →
    exec .isprime s = .next { s with block := { s.block with res := 1#64, busy := false, done := true } }

/-- R102: every even `n` is decided by witness 2: 2 is prime, every other even `n` is composite; and each witness itself is
prime. -/
def Obligations.WitnessDivisionDecidesFirst : Prop :=
  (∀ n : Word, 2 ≤ n.toNat → n.toNat % 2 = 0 → isprime n = decide (n = 2#64)) ∧
  (∀ n : Word, n.toNat ∈ witnessSet → isprime n = true) ∧
  (∀ n a : Word, a.toNat ∈ witnessSet → a.toNat < n.toNat → n.toNat % a.toNat = 0 → isprime n = false)

/-- R120 and R131: FACTOR completes, for every `LA`, with the distinct primes of `LA` rising in `FP`, their exponents in
`FE`, their number (at most fifteen) in `FCNT` and zero in the entries beyond; nothing else but `BUSY` and `DONE`
changes. -/
def Obligations.FactorCompletes : Prop :=
  ∀ s : State, s.turn = .engine → s.block.busy = true → s.block.opc = 4#8 →
    ∃ (cnt : BitVec 4) (fp fe : Vector Word 15),
      exec .factor s = .next { s with block :=
        { s.block with fcnt := cnt, fp := fp, fe := fe, busy := false, done := true } } ∧
      cnt.toNat = (primesOf s.block.la.toNat).length ∧
      ∀ k : Fin 15,
        (k.val < cnt.toNat → fp[k].toNat = (primesOf s.block.la.toNat).getD k 0 ∧
          fe[k].toNat = s.block.la.toNat.factorization fp[k].toNat) ∧
        (cnt.toNat ≤ k.val → fp[k] = 0#64 ∧ fe[k] = 0#64)

/-- What `exec` and the step answer on the engine's turn where the command asked for does not complete. That with
`BUSY = 0` nothing changes is R67 ("Enabled exactly when `BUSY = 1`"). That with `BUSY = 1` and `OPC` naming another command
`exec i` changes nothing is the model's choice about `exec` (notes/assumptions/4.md, DEDUCED): the step itself then
completes the command that `OPC` names (`StepRunsTheCommandRunning`). That on latches that R30 item 4 excludes, and on an
`OPC` that names no command, the model stops by name is the model's choice too (notes/assumptions/5.md). -/
def Obligations.EngineOutsideItsDomain : Prop :=
  (∀ (i : Instr) (s : State), s.turn = .engine → s.block.busy = false ∨ s.block.opc ≠ opcodeByte i →
    exec i s = .next s) ∧
  (∀ s : State, s.turn = .engine → s.block.busy = true → s.block.lm = 0#64 →
    (s.block.opc = 1#8 → exec .modsq s = .fault .latchesOutsideDomain) ∧
    (s.block.opc = 2#8 → exec .modpow s = .fault .latchesOutsideDomain)) ∧
  (∀ s : State, s.turn = .engine → s.block.busy = true → s.block.opc = 3#8 → s.block.la.toNat < 2 →
    exec .isprime s = .fault .latchesOutsideDomain) ∧
  (∀ s : State, s.turn = .engine → s.block.busy = true → s.block.opc = 0#8 ∨ 5 ≤ s.block.opc.toNat →
    step s = .fault .opcNamesNoCommand)

/-! ### The four functions -/

/-- R7: the arithmetic primitives on their domains. -/
def Obligations.ArithmeticPrimitives : Prop :=
  (∀ a b m : Word, 1 ≤ m.toNat →
    mulmod a b m = ((a.zeroExtend 128 * b.zeroExtend 128) % m.zeroExtend 128).truncate 64 ∧
    (mulmod a b m).toNat = a.toNat * b.toNat % m.toNat) ∧
  (∀ v : Word, v ≠ 0#64 → ctz64 v ≤ 63 ∧ ∀ k ≤ 63, v.toNat % 2 ^ k = 0 ↔ k ≤ ctz64 v) ∧
  (∀ v t : Word, t.toNat ≤ isqrt64 v.toNat ↔ t.zeroExtend 128 * t.zeroExtend 128 ≤ v.zeroExtend 128) ∧
  isqrt64 0 = 0 ∧ isqrt64 1 = 1 ∧ isqrt64 (2 ^ 64 - 1) = 2 ^ 32 - 1 ∧
  (∀ (v : Word) (k : Nat), k ≤ 63 → (v >>> k).toNat = v.toNat / 2 ^ k)

/-- R81: reducing the operand first gives the same square, and the two named operands have the results that need the
128-bit product. -/
def Obligations.ModsqMayReduceFirst : Prop :=
  (∀ x m : Word, 1 ≤ m.toNat → modsq (x % m) m = modsq x m) ∧
  modsq 0x0000000100000000#64 0xFFFFFFFFFFFFFFFF#64 = 1#64 ∧ modsq 0xFFFFFFFFFFFFFFC5#64 0xFFFFFFFFFFFFFFAD#64 = 576#64

/-- From R91, a resumption law: MODPOW's loop, resumed with the iterations that remain from the scratch values that R91
gives for `k` iterations, returns `modpow`; and the value that R91 gives at the exit. It does not say that the loop itself
passes through those values. -/
def Obligations.ModpowLoopLaw : Prop :=
  ∀ base exponent m : Word, 1 ≤ m.toNat →
    (∀ k ≤ 64, modpow base exponent m =
      modpowLoop m (64 - k) (modpowAcc base exponent m k) (modpowBase base m k) (exponent >>> k)) ∧
    modpow base exponent m =
      (if exponent = 0#64 then 1#64 else BitVec.ofNat 64 (base.toNat ^ exponent.toNat % m.toNat))

/-- R94: running a fixed 64 iterations, or reducing the base first, gives the same value. -/
def Obligations.ModpowEquivalentRealisations : Prop :=
  ∀ base exponent m : Word, 1 ≤ m.toNat →
    modpowFixed m 64 1#64 base exponent = modpow base exponent m ∧
    modpow (base % m) exponent m = modpow base exponent m

/-- R129: `factor n` is the prime factorization of `n`: its primes are exactly the primes dividing `n`, strictly rising,
each with its exact power, and the powers multiply back to `n`; for `n <= 1` it is empty. -/
def Obligations.FactorIsThePrimeFactorization : Prop :=
  ∀ n : Word,
    (n.toNat ≤ 1 → factor n = []) ∧
    (2 ≤ n.toNat →
      (∀ p, p ∈ (factor n).map Prod.fst ↔ p.Prime ∧ p ∣ n.toNat) ∧
      ((factor n).map Prod.fst).Pairwise (· < ·) ∧
      (∀ pe ∈ factor n, 1 ≤ pe.2 ∧ pe.1 ^ pe.2 ∣ n.toNat ∧ ¬ pe.1 ^ (pe.2 + 1) ∣ n.toNat) ∧
      ((factor n).map fun pe => pe.1 ^ pe.2).prod = n.toNat)

/-- R131: no 64-bit number has more than fifteen distinct prime factors, no result more than fifteen pairs, and
614889782588491410 has exactly fifteen. -/
def Obligations.FactorFileNeverOverflows : Prop :=
  (∀ n : Word, n.toNat.primeFactors.card ≤ 15 ∧ (factor n).length ≤ 15) ∧ (factor 614889782588491410#64).length = 15

/-- R132: the wheel's candidates are exactly the integers from 7 on that are coprime to 30, rising, by the formula given;
and the walk goes through them in that order while none divides. -/
def Obligations.WheelEnumeratesCoprimes : Prop :=
  (∀ q r, r < 8 → (wheelAt (8 * q + r)).1 = 7 + 30 * q + (([4, 2, 4, 2, 4, 6, 2, 6] : List Nat).take r).sum) ∧
  (∀ k, (wheelAt k).1 < (wheelAt (k + 1)).1) ∧
  (∀ n, (∃ k, (wheelAt k).1 = n) ↔ 7 ≤ n ∧ n.Coprime 30) ∧
  (∀ fuel bound k work, (∀ j < k, (wheelAt j).1 ≤ bound ∧ ¬ (wheelAt j).1 ∣ work.rem) →
    wheelWalk (fuel + k) 7 0 bound work = wheelWalk fuel (wheelAt k).1 (wheelAt k).2 bound work)

/-- R136: the walk that compares `div * div <= rem` over the integers gives the same pairs as the walk that keeps the exact
bound. -/
def Obligations.WalkByProductIsTheSame : Prop :=
  ∀ work : FactorWork, 1 ≤ work.rem → work.rem < 2 ^ 64 →
    walkFromStart work = productWalk (isqrt64 work.rem) 7 0 work

/-! ### Frames -/

/-- The command write of any command, whatever it does, leaves the operand registers, the result registers and the factor
file as they were, and the model's own fields too (R66, R146); every index but `CMD` and `STATUS` reads as before. -/
def Obligations.CommandWriteFrame : Prop :=
  ∀ (i : Instr) (s t : State), s.turn = .host → exec i s = .next t →
    t.block.opa = s.block.opa ∧ t.block.opb = s.block.opb ∧ t.block.opm = s.block.opm ∧ t.block.res = s.block.res ∧
    t.block.fcnt = s.block.fcnt ∧ t.block.fp = s.block.fp ∧ t.block.fe = s.block.fe ∧
    (∀ idx : Index, 2 ≤ idx.toNat → portRead idx t.block = portRead idx s.block) ∧
    (t.block.fault = true → t.block.opc = s.block.opc ∧ t.block.la = s.block.la ∧ t.block.lb = s.block.lb ∧
      t.block.lm = s.block.lm) ∧
    (t.block.fault = false → t.block.cause = s.block.cause) ∧
    t.turn = s.turn ∧ t.schedule = s.schedule ∧ t.program = s.program ∧ t.reads = s.reads

/-- The completion of any command leaves the operand registers, `OPC`, `FAULT`, `CAUSE` and the latches as they were, and
the model's own fields too; MODSQ, MODPOW and ISPRIME leave the factor file, FACTOR leaves `RES` (R67, R80, R90, R100,
R120); so reads every index they do not own. -/
def Obligations.CompletionFrame : Prop :=
  ∀ (i : Instr) (s t : State), s.turn = .engine → exec i s = .next t →
    t.block.opa = s.block.opa ∧ t.block.opb = s.block.opb ∧ t.block.opm = s.block.opm ∧ t.block.opc = s.block.opc ∧
    t.block.fault = s.block.fault ∧ t.block.cause = s.block.cause ∧ t.block.la = s.block.la ∧
    t.block.lb = s.block.lb ∧ t.block.lm = s.block.lm ∧
    (i ≠ .factor → t.block.fcnt = s.block.fcnt ∧ t.block.fp = s.block.fp ∧ t.block.fe = s.block.fe ∧
      ∀ idx : Index, idx.toNat ≠ 1 → idx.toNat ≠ 5 → portRead idx t.block = portRead idx s.block) ∧
    (i = .factor → t.block.res = s.block.res ∧
      ∀ idx : Index, idx.toNat ≠ 1 → idx.toNat < 6 → portRead idx t.block = portRead idx s.block) ∧
    t.turn = s.turn ∧ t.schedule = s.schedule ∧ t.program = s.program ∧ t.reads = s.reads

/-- R11: only a host write to its own index, or reset, changes an operand register. -/
def Obligations.OperandsChangeOnlyByHostWrite : Prop :=
  ∀ s t : State, step s = .next t →
    (t.block.opa ≠ s.block.opa → s.turn = .host ∧ ∃ rest, s.program = .reset :: rest ∨
      (s.block.fault = false ∧ s.program = .write 0x02#6 t.block.opa :: rest)) ∧
    (t.block.opb ≠ s.block.opb → s.turn = .host ∧ ∃ rest, s.program = .reset :: rest ∨
      (s.block.fault = false ∧ s.program = .write 0x03#6 t.block.opb :: rest)) ∧
    (t.block.opm ≠ s.block.opm → s.turn = .host ∧ ∃ rest, s.program = .reset :: rest ∨
      (s.block.fault = false ∧ s.program = .write 0x04#6 t.block.opm :: rest))

/-- R179: `RES` changes only when MODSQ, MODPOW or ISPRIME completes, the factor file only when FACTOR completes; otherwise
only by reset. -/
def Obligations.ResultsChangeOnlyAtTheirCompletion : Prop :=
  ∀ s t : State, step s = .next t →
    (t.block.res ≠ s.block.res →
      (s.turn = .engine ∧ s.block.busy = true ∧ (s.block.opc = 1#8 ∨ s.block.opc = 2#8 ∨ s.block.opc = 3#8)) ∨
      (s.turn = .host ∧ ∃ rest, s.program = .reset :: rest)) ∧
    (t.block.fcnt ≠ s.block.fcnt ∨ t.block.fp ≠ s.block.fp ∨ t.block.fe ≠ s.block.fe →
      (s.turn = .engine ∧ s.block.busy = true ∧ s.block.opc = 4#8) ∨
      (s.turn = .host ∧ ∃ rest, s.program = .reset :: rest))

/-- R14 and R23: `OPC` and the latches change only when a command is accepted, which then are that command's opcode and the
operand registers, or by reset. -/
def Obligations.OpcAndLatchesChangeOnlyAtAcceptance : Prop :=
  ∀ s t : State, step s = .next t →
    t.block.opc ≠ s.block.opc ∨ t.block.la ≠ s.block.la ∨ t.block.lb ≠ s.block.lb ∨ t.block.lm ≠ s.block.lm →
    s.turn = .host ∧ ∃ rest, s.program = .reset :: rest ∨
      ∃ i, s.program = .write 0#6 (encode i) :: rest ∧ s.block.fault = false ∧ s.block.busy = false ∧
        operandsOk i s.block ∧ t.block = accepted i s.block

/-- R16 and R17: what changes `BUSY` and `DONE`. -/
def Obligations.BusyAndDoneChangeAsStated : Prop :=
  ∀ s t : State, step s = .next t →
    (s.block.busy = false → t.block.busy = true → s.turn = .host ∧ ∃ i rest, s.program = .write 0#6 (encode i) :: rest ∧
      t.block = accepted i s.block) ∧
    (s.block.busy = true → t.block.busy = false →
      (s.turn = .engine ∧ t.block.done = true) ∨
      (s.turn = .host ∧ ∃ rest, s.program = .reset :: rest ∨
        ∃ w, s.program = .write 0#6 w :: rest ∧ t.block = faulted .busyCmd s.block)) ∧
    (s.block.done = false → t.block.done = true → s.turn = .engine ∧ s.block.busy = true ∧ t.block.busy = false) ∧
    (s.block.done = true → t.block.done = false → s.turn = .host ∧ ∃ rest, s.program = .reset :: rest ∨
      ∃ w, s.program = .write 0#6 w :: rest ∧ (t.block.busy = true ∨ t.block.fault = true))

/-! ### Isolation, host loops -/

/-- R46: whatever the host writes to the other indices while the command runs, the results are those of the operands held at
the command write. -/
def Obligations.OperandWritesWhileBusyDoNotDisturb : Prop :=
  ∀ (i : Instr) (s t : State) (writes : List (Index × Word)),
    s.turn = .engine → s.block.fault = false → s.block.busy = true → (∀ w ∈ writes, w.1 ≠ 0#6) →
    exec i s = .next t →
    ∃ u, exec i { s with block := writes.foldl (fun b w => portWrite w.1 w.2 b) s.block } = .next u ∧
      u.block.res = t.block.res ∧ u.block.fcnt = t.block.fcnt ∧ u.block.fp = t.block.fp ∧ u.block.fe = t.block.fe ∧
      u.block.busy = t.block.busy ∧ u.block.done = t.block.done

/-- R70, the two host loops inside the pseudo-instructions: `WAIT` reads `STATUS` and stays exactly while the bit read is 1;
the factor reads read `FCNT` and then the `k` pairs in order. -/
def Obligations.HostLoopsReadAndRepeat : Prop :=
  ∀ (s : State) (rest : List HostOp), s.turn = .host →
    (s.program = .wait :: rest → ∃ t, step s = .next t ∧ t.block = s.block ∧
      t.reads = ⟨0x01#6, statusWord s.block⟩ :: s.reads ∧
      t.program = if s.block.busy then .wait :: rest else rest) ∧
    (s.program = .readFactors :: rest → ∃ t reading, step s = .next t ∧ t.block = s.block ∧
      t.reads = ⟨0x06#6, s.block.fcnt.setWidth 64⟩ :: s.reads ∧ t.program = reading ++ rest ∧
      reading.length = 2 * s.block.fcnt.toNat ∧
      ∀ k < s.block.fcnt.toNat, reading[2 * k]? = some (.read (BitVec.ofNat 6 (0x10 + k))) ∧
        reading[2 * k + 1]? = some (.read (BitVec.ofNat 6 (0x20 + k))))

/-! ### Invariants, safety, liveness -/

/-- The block after reset satisfies the invariants of R30. -/
def Obligations.ResetSatisfiesInvariants : Prop := State.reset.block.Inv

/-- R30: every step keeps the invariants, from every state that has them. -/
def Obligations.StepKeepsInvariants : Prop :=
  ∀ s t : State, s.block.Inv → step s = .next t → t.block.Inv

/-- R17: every step keeps what `DONE = 1` tells the host about the result registers. -/
def Obligations.StepKeepsResultsCurrent : Prop :=
  ∀ s t : State, resultIsCurrent s.block → step s = .next t → resultIsCurrent t.block

/-- R67: from every state with the invariants a step answers a next state: no completion faults, no state is stuck. -/
def Obligations.StepAlwaysAnswers : Prop := ∀ s : State, s.block.Inv → ∃ t, step s = .next t

/-- R178: a busy block is idle again after at most as many steps as the schedule is long and two more, whatever the host
does meanwhile: by completion, by `BUSY_CMD` or by reset. That the engine has the turn when the schedule has run out is the
model's form of weak fairness (notes/assumptions/2.md). -/
def Obligations.BusyBlockBecomesIdle : Prop :=
  ∀ s : State, s.block.Inv → s.block.busy = true →
    ∃ n ≤ s.schedule.length + 2, ∃ t : State, Host.Core.run Sys2Proof.core n s = .next t ∧ t.block.busy = false
end

