-- ==== Sys2Proof/Laws/Arith.lean ====
section
/-! SUPPORT. One lemma for each arithmetic operation that the command functions share (00_scope.md R7, 43_factor.md R122). -/

namespace Sys2Proof.Machine

/-- `mulmod` is the integer product modulo `m`, for `m >= 1`. -/
theorem mulmod_toNat {a b m : Word} (hm : 0 < m.toNat) :
    (mulmod a b m).toNat = a.toNat * b.toNat % m.toNat := by
  have hlt : a.toNat * b.toNat < 2 ^ 128 :=
    lt_of_lt_of_le (Nat.mul_lt_mul'' a.isLt b.isLt) (by decide)
  have hr := Nat.mod_lt (a.toNat * b.toNat) hm
  have hmod := m.isLt
  simp only [mulmod, BitVec.toNat_setWidth, BitVec.toNat_umod, BitVec.toNat_mul]
  rw [Nat.mod_eq_of_lt (a := a.toNat) (by have := a.isLt; omega),
    Nat.mod_eq_of_lt (a := b.toNat) (by have := b.isLt; omega),
    Nat.mod_eq_of_lt (a := m.toNat) (by omega), Nat.mod_eq_of_lt hlt, Nat.mod_eq_of_lt (by omega)]

/-- MODSQ's function is `mulmod` of the operand with itself (R7, 40_modsq.md R80). -/
theorem modsq_eq_mulmod (x m : Word) : modsq x m = mulmod x x m := rfl

/-- `modsq` is the integer square modulo `m`, for `m >= 1`. -/
theorem modsq_toNat {x m : Word} (hm : 0 < m.toNat) : (modsq x m).toNat = x.toNat * x.toNat % m.toNat :=
  mulmod_toNat hm

/-- `v >> k` is the quotient by `2^k`. -/
theorem ushiftRight_toNat (v : Word) (k : Nat) : (v >>> k).toNat = v.toNat / 2 ^ k := by
  rw [BitVec.toNat_ushiftRight, Nat.shiftRight_eq_div_pow]

/-- A scan of `fuel` bits that hold a set bit finds the lowest one. -/
theorem ctzScan_bits {fuel : Nat} {v : Word} (h : v.toNat % 2 ^ fuel ≠ 0) :
    ctzScan fuel v < fuel ∧ 2 ^ ctzScan fuel v ∣ v.toNat ∧ v.toNat / 2 ^ ctzScan fuel v % 2 = 1 := by
  induction fuel generalizing v with
  | zero => simp [Nat.mod_one] at h
  | succ k ih =>
    simp only [ctzScan]
    have hbit : v.getLsbD 0 = decide (v.toNat % 2 = 1) := by
      simp [BitVec.getLsbD, Nat.testBit_zero]
    rw [hbit]
    by_cases hodd : v.toNat % 2 = 1
    · simp [hodd]
    · have heven : v.toNat = 2 * (v.toNat / 2) := by omega
      have hshift : (v >>> 1).toNat = v.toNat / 2 := by
        rw [BitVec.toNat_ushiftRight, Nat.shiftRight_eq_div_pow, pow_one]
      have hk : (v >>> 1).toNat % 2 ^ k ≠ 0 := by
        rw [hshift]
        intro h0
        apply h
        rw [heven, pow_succ', Nat.mul_mod_mul_left, h0]
      obtain ⟨hlt, hdvd, hres⟩ := ih hk
      rw [hshift] at hdvd hres
      simp only [hodd, decide_false, Bool.false_eq_true, if_false]
      refine ⟨by omega, ?_, ?_⟩
      · rw [heven, pow_succ']
        exact Nat.mul_dvd_mul_left 2 hdvd
      · rw [pow_succ', ← Nat.div_div_eq_div_mul]
        exact hres

/-- `ctz64` of a non-zero word is at most 63, its power of two divides the word, and the quotient is odd. -/
theorem ctz64_bits {v : Word} (h : v ≠ 0#64) :
    ctz64 v < 64 ∧ 2 ^ ctz64 v ∣ v.toNat ∧ v.toNat / 2 ^ ctz64 v % 2 = 1 := by
  apply ctzScan_bits
  rw [Nat.mod_eq_of_lt v.isLt]
  intro h0
  exact h (BitVec.eq_of_toNat_eq (by simpa using h0))

/-- The digit-by-digit square root keeps its bracket: what is found is below the root, by less than the part still open. -/
theorem isqrtBits_bracket {k r v : Nat} (hlo : r * r ≤ v) (hhi : v < (r + 2 ^ k) * (r + 2 ^ k)) :
    isqrtBits k r v * isqrtBits k r v ≤ v ∧ v < (isqrtBits k r v + 1) * (isqrtBits k r v + 1) := by
  induction k generalizing r with
  | zero => simpa [isqrtBits] using ⟨hlo, hhi⟩
  | succ k ih =>
    simp only [isqrtBits]
    split
    · next h =>
      refine ih h ?_
      rwa [add_assoc, ← two_mul, ← pow_succ']
    · next h => exact ih hlo (by omega)

/-- `isqrt64` is the exact floor of the square root, below `2^64`. -/
theorem isqrt64_bracket {v : Nat} (h : v < 2 ^ 64) :
    isqrt64 v * isqrt64 v ≤ v ∧ v < (isqrt64 v + 1) * (isqrt64 v + 1) :=
  isqrtBits_bracket (by simp) (lt_of_lt_of_le h (by norm_num))

/-- Dividing out a power with enough fuel: the power found times the rest is the start, and the rest is no multiple. -/
theorem dividePower_spec {p fuel rem cnt : Nat} (hp : 2 ≤ p) (hpos : 0 < rem) (hfuel : rem < 2 ^ fuel) :
    ∃ e, (dividePower p fuel rem cnt).2 = cnt + e ∧ rem = (dividePower p fuel rem cnt).1 * p ^ e ∧
      0 < (dividePower p fuel rem cnt).1 ∧ ¬ p ∣ (dividePower p fuel rem cnt).1 := by
  induction fuel generalizing rem cnt with
  | zero => simp at hfuel; omega
  | succ k ih =>
    simp only [dividePower]
    split
    · next h =>
      obtain ⟨q, rfl⟩ := Nat.dvd_of_mod_eq_zero h
      have hq : 0 < q := Nat.pos_of_mul_pos_left hpos
      have hdiv : p * q / p = q := Nat.mul_div_cancel_left q (by omega)
      have hsmall : q < 2 ^ k := by
        rw [pow_succ'] at hfuel
        have : 2 * q ≤ p * q := Nat.mul_le_mul_right q hp
        omega
      obtain ⟨e, he, hrem, hpos', hnot⟩ := ih (cnt := cnt + 1) hq hsmall
      rw [hdiv]
      refine ⟨e + 1, by omega, ?_, hpos', hnot⟩
      rw [pow_succ', ← mul_assoc, mul_comm _ p, mul_assoc]
      exact congrArg (p * ·) hrem
    · next h =>
      exact ⟨0, rfl, by simp, hpos, fun hd => h (Nat.mod_eq_zero_of_dvd hd)⟩

end Sys2Proof.Machine
end

