-- ==== Sys2Proof/Laws/State.lean ====
section
/-! SUPPORT. One lemma per field per update of the block and of the state, so that no later proof unfolds a record
update. -/

namespace Sys2Proof.Machine

@[simp] theorem raiseFault_opa (c : Cause) (b : Block) : (raiseFault c b).opa = b.opa := rfl
@[simp] theorem raiseFault_opb (c : Cause) (b : Block) : (raiseFault c b).opb = b.opb := rfl
@[simp] theorem raiseFault_opm (c : Cause) (b : Block) : (raiseFault c b).opm = b.opm := rfl
@[simp] theorem raiseFault_res (c : Cause) (b : Block) : (raiseFault c b).res = b.res := rfl
@[simp] theorem raiseFault_opc (c : Cause) (b : Block) : (raiseFault c b).opc = b.opc := rfl
@[simp] theorem raiseFault_busy (c : Cause) (b : Block) : (raiseFault c b).busy = false := rfl
@[simp] theorem raiseFault_done (c : Cause) (b : Block) : (raiseFault c b).done = false := rfl
@[simp] theorem raiseFault_fault (c : Cause) (b : Block) : (raiseFault c b).fault = true := rfl
@[simp] theorem raiseFault_cause (c : Cause) (b : Block) : (raiseFault c b).cause = c := rfl
@[simp] theorem raiseFault_fcnt (c : Cause) (b : Block) : (raiseFault c b).fcnt = b.fcnt := rfl
@[simp] theorem raiseFault_fp (c : Cause) (b : Block) : (raiseFault c b).fp = b.fp := rfl
@[simp] theorem raiseFault_fe (c : Cause) (b : Block) : (raiseFault c b).fe = b.fe := rfl
@[simp] theorem raiseFault_la (c : Cause) (b : Block) : (raiseFault c b).la = b.la := rfl
@[simp] theorem raiseFault_lb (c : Cause) (b : Block) : (raiseFault c b).lb = b.lb := rfl
@[simp] theorem raiseFault_lm (c : Cause) (b : Block) : (raiseFault c b).lm = b.lm := rfl

@[simp] theorem finish_opa (b : Block) : (finish b).opa = b.opa := rfl
@[simp] theorem finish_opb (b : Block) : (finish b).opb = b.opb := rfl
@[simp] theorem finish_opm (b : Block) : (finish b).opm = b.opm := rfl
@[simp] theorem finish_res (b : Block) : (finish b).res = b.res := rfl
@[simp] theorem finish_opc (b : Block) : (finish b).opc = b.opc := rfl
@[simp] theorem finish_busy (b : Block) : (finish b).busy = false := rfl
@[simp] theorem finish_done (b : Block) : (finish b).done = true := rfl
@[simp] theorem finish_fault (b : Block) : (finish b).fault = b.fault := rfl
@[simp] theorem finish_cause (b : Block) : (finish b).cause = b.cause := rfl
@[simp] theorem finish_fcnt (b : Block) : (finish b).fcnt = b.fcnt := rfl
@[simp] theorem finish_fp (b : Block) : (finish b).fp = b.fp := rfl
@[simp] theorem finish_fe (b : Block) : (finish b).fe = b.fe := rfl
@[simp] theorem finish_la (b : Block) : (finish b).la = b.la := rfl
@[simp] theorem finish_lb (b : Block) : (finish b).lb = b.lb := rfl
@[simp] theorem finish_lm (b : Block) : (finish b).lm = b.lm := rfl

@[simp] theorem accept_opa (i : Instr) (b : Block) : (accept i b).opa = b.opa := rfl
@[simp] theorem accept_opb (i : Instr) (b : Block) : (accept i b).opb = b.opb := rfl
@[simp] theorem accept_opm (i : Instr) (b : Block) : (accept i b).opm = b.opm := rfl
@[simp] theorem accept_res (i : Instr) (b : Block) : (accept i b).res = b.res := rfl
@[simp] theorem accept_opc (i : Instr) (b : Block) : (accept i b).opc = opcodeOf i := rfl
@[simp] theorem accept_busy (i : Instr) (b : Block) : (accept i b).busy = true := rfl
@[simp] theorem accept_done (i : Instr) (b : Block) : (accept i b).done = false := rfl
@[simp] theorem accept_fault (i : Instr) (b : Block) : (accept i b).fault = b.fault := rfl
@[simp] theorem accept_cause (i : Instr) (b : Block) : (accept i b).cause = b.cause := rfl
@[simp] theorem accept_fcnt (i : Instr) (b : Block) : (accept i b).fcnt = b.fcnt := rfl
@[simp] theorem accept_fp (i : Instr) (b : Block) : (accept i b).fp = b.fp := rfl
@[simp] theorem accept_fe (i : Instr) (b : Block) : (accept i b).fe = b.fe := rfl
@[simp] theorem accept_la (i : Instr) (b : Block) : (accept i b).la = b.opa := rfl
@[simp] theorem accept_lb (i : Instr) (b : Block) : (accept i b).lb = b.opb := rfl
@[simp] theorem accept_lm (i : Instr) (b : Block) : (accept i b).lm = b.opm := rfl

@[simp] theorem setRes_opa (v : Word) (b : Block) : (setRes v b).opa = b.opa := rfl
@[simp] theorem setRes_opb (v : Word) (b : Block) : (setRes v b).opb = b.opb := rfl
@[simp] theorem setRes_opm (v : Word) (b : Block) : (setRes v b).opm = b.opm := rfl
@[simp] theorem setRes_res (v : Word) (b : Block) : (setRes v b).res = v := rfl
@[simp] theorem setRes_opc (v : Word) (b : Block) : (setRes v b).opc = b.opc := rfl
@[simp] theorem setRes_busy (v : Word) (b : Block) : (setRes v b).busy = b.busy := rfl
@[simp] theorem setRes_done (v : Word) (b : Block) : (setRes v b).done = b.done := rfl
@[simp] theorem setRes_fault (v : Word) (b : Block) : (setRes v b).fault = b.fault := rfl
@[simp] theorem setRes_cause (v : Word) (b : Block) : (setRes v b).cause = b.cause := rfl
@[simp] theorem setRes_fcnt (v : Word) (b : Block) : (setRes v b).fcnt = b.fcnt := rfl
@[simp] theorem setRes_fp (v : Word) (b : Block) : (setRes v b).fp = b.fp := rfl
@[simp] theorem setRes_fe (v : Word) (b : Block) : (setRes v b).fe = b.fe := rfl
@[simp] theorem setRes_la (v : Word) (b : Block) : (setRes v b).la = b.la := rfl
@[simp] theorem setRes_lb (v : Word) (b : Block) : (setRes v b).lb = b.lb := rfl
@[simp] theorem setRes_lm (v : Word) (b : Block) : (setRes v b).lm = b.lm := rfl

@[simp] theorem setFactors_opa (out : List (Nat × Nat)) (b : Block) : (setFactors out b).opa = b.opa := rfl
@[simp] theorem setFactors_opb (out : List (Nat × Nat)) (b : Block) : (setFactors out b).opb = b.opb := rfl
@[simp] theorem setFactors_opm (out : List (Nat × Nat)) (b : Block) : (setFactors out b).opm = b.opm := rfl
@[simp] theorem setFactors_res (out : List (Nat × Nat)) (b : Block) : (setFactors out b).res = b.res := rfl
@[simp] theorem setFactors_opc (out : List (Nat × Nat)) (b : Block) : (setFactors out b).opc = b.opc := rfl
@[simp] theorem setFactors_busy (out : List (Nat × Nat)) (b : Block) : (setFactors out b).busy = b.busy := rfl
@[simp] theorem setFactors_done (out : List (Nat × Nat)) (b : Block) : (setFactors out b).done = b.done := rfl
@[simp] theorem setFactors_fault (out : List (Nat × Nat)) (b : Block) : (setFactors out b).fault = b.fault := rfl
@[simp] theorem setFactors_cause (out : List (Nat × Nat)) (b : Block) : (setFactors out b).cause = b.cause := rfl
@[simp] theorem setFactors_fcnt (out : List (Nat × Nat)) (b : Block) : (setFactors out b).fcnt = BitVec.ofNat 4 out.length := rfl
@[simp] theorem setFactors_fp (out : List (Nat × Nat)) (b : Block) : (setFactors out b).fp = Vector.ofFn fun i => factorSlot (out.map Prod.fst) i := rfl
@[simp] theorem setFactors_fe (out : List (Nat × Nat)) (b : Block) : (setFactors out b).fe = Vector.ofFn fun i => factorSlot (out.map Prod.snd) i := rfl
@[simp] theorem setFactors_la (out : List (Nat × Nat)) (b : Block) : (setFactors out b).la = b.la := rfl
@[simp] theorem setFactors_lb (out : List (Nat × Nat)) (b : Block) : (setFactors out b).lb = b.lb := rfl
@[simp] theorem setFactors_lm (out : List (Nat × Nat)) (b : Block) : (setFactors out b).lm = b.lm := rfl

@[simp] theorem resetEvent_eq (b : Block) : resetEvent b = Block.reset := rfl
@[simp] theorem Block.reset_opa : Block.reset.opa = 0#64 := rfl
@[simp] theorem Block.reset_opb : Block.reset.opb = 0#64 := rfl
@[simp] theorem Block.reset_opm : Block.reset.opm = 0#64 := rfl
@[simp] theorem Block.reset_res : Block.reset.res = 0#64 := rfl
@[simp] theorem Block.reset_opc : Block.reset.opc = 0#8 := rfl
@[simp] theorem Block.reset_busy : Block.reset.busy = false := rfl
@[simp] theorem Block.reset_done : Block.reset.done = false := rfl
@[simp] theorem Block.reset_fault : Block.reset.fault = false := rfl
@[simp] theorem Block.reset_cause : Block.reset.cause = .none := rfl
@[simp] theorem Block.reset_fcnt : Block.reset.fcnt = 0#4 := rfl
@[simp] theorem Block.reset_fp : Block.reset.fp = Vector.replicate 15 0#64 := rfl
@[simp] theorem Block.reset_fe : Block.reset.fe = Vector.replicate 15 0#64 := rfl
@[simp] theorem Block.reset_la : Block.reset.la = 0#64 := rfl
@[simp] theorem Block.reset_lb : Block.reset.lb = 0#64 := rfl
@[simp] theorem Block.reset_lm : Block.reset.lm = 0#64 := rfl

@[simp] theorem passTurn_block (s : State) : (passTurn s).block = s.block := by
  unfold passTurn; split <;> rfl
@[simp] theorem passTurn_reads (s : State) : (passTurn s).reads = s.reads := by
  unfold passTurn; split <;> rfl
@[simp] theorem passTurn_program (s : State) : (passTurn s).program = s.program := by
  unfold passTurn; split <;> rfl

/-- With a schedule, its next agent has the next turn. -/
theorem passTurn_of_cons {s : State} {a : Agent} {rest : List Agent} (h : s.schedule = a :: rest) :
    passTurn s = { s with turn := a, schedule := rest } := by
  unfold passTurn; rw [h]

/-- Without one, the engine has it exactly when the block is busy. -/
theorem passTurn_of_nil {s : State} (h : s.schedule = []) :
    passTurn s = { s with turn := if s.block.busy then .engine else .host } := by
  unfold passTurn; rw [h]

@[simp] theorem performRead_block (idx : Index) (s : State) : (performRead idx s).block = s.block := rfl
@[simp] theorem performRead_turn (idx : Index) (s : State) : (performRead idx s).turn = s.turn := rfl
@[simp] theorem performRead_schedule (idx : Index) (s : State) : (performRead idx s).schedule = s.schedule := rfl
@[simp] theorem performRead_program (idx : Index) (s : State) : (performRead idx s).program = s.program := rfl
@[simp] theorem performRead_reads (idx : Index) (s : State) : (performRead idx s).reads = ⟨idx, portRead idx s.block⟩ :: s.reads := rfl
@[simp] theorem pollStatus_block (s : State) : (pollStatus s).block = s.block := by
  unfold pollStatus; dsimp only; split <;> rfl
@[simp] theorem pollStatus_turn (s : State) : (pollStatus s).turn = s.turn := by
  unfold pollStatus; dsimp only; split <;> rfl
@[simp] theorem pollStatus_schedule (s : State) : (pollStatus s).schedule = s.schedule := by
  unfold pollStatus; dsimp only; split <;> rfl
@[simp] theorem pollStatus_reads (s : State) :
    (pollStatus s).reads = ⟨regIndex .status, portRead (regIndex .status) s.block⟩ :: s.reads := by
  unfold pollStatus; dsimp only; split <;> rfl
@[simp] theorem startPairReads_block (s : State) :
    (startPairReads s).block = s.block := rfl
@[simp] theorem startPairReads_turn (s : State) :
    (startPairReads s).turn = s.turn := rfl
@[simp] theorem startPairReads_schedule (s : State) :
    (startPairReads s).schedule = s.schedule := rfl
@[simp] theorem startPairReads_reads (s : State) :
    (startPairReads s).reads = ⟨regIndex .fcnt, portRead (regIndex .fcnt) s.block⟩ :: s.reads := rfl

@[simp] theorem passOutcome_next (s : State) : passOutcome (.next s) = .next (passTurn s) := rfl
@[simp] theorem passOutcome_fault (f : Fault) : passOutcome (.fault f) = .fault f := rfl
@[simp] theorem passOutcome_refused (r : Refusal) : passOutcome (.refused r) = .refused r := rfl

/-- A step that answers a next state is an agent's step that did, with the turn passed. -/
theorem passOutcome_next_inv {o : Host.Outcome State Fault Refusal} {t : State} (h : passOutcome o = .next t) :
    ∃ u, o = .next u ∧ t = passTurn u := by
  cases o with
  | next u => exact ⟨u, rfl, by injection h with h; exact h.symm⟩
  | fault f => cases h
  | refused r => cases h

end Sys2Proof.Machine
end

