-- ==== Sys2Proof/Laws/Ops.lean ====
section
/-! SUPPORT. One lemma for each shared operation of the shell, saying once everything it can do: the command write, the
port write, the completion, a host line, an agent's turn, a step. Later proofs cite these and do not unfold the
operations. -/

namespace Sys2Proof.Machine

/-! ### Decoding -/

theorem commandOf_opcodeOf (i : Instr) : commandOf (opcodeOf i) = some i := by cases i <;> rfl

theorem commandOf_eq_some_iff {op : Opcode} {i : Instr} : commandOf op = some i ↔ op = opcodeOf i := by
  constructor
  · unfold commandOf
    split
    · rintro ⟨⟩; assumption
    split
    · rintro ⟨⟩; assumption
    split
    · rintro ⟨⟩; assumption
    split
    · rintro ⟨⟩; assumption
    · rintro ⟨⟩
  · rintro rfl; exact commandOf_opcodeOf i

/-! ### The operand check -/

@[simp] theorem operandFault_modsq_eq_none {a m : Word} : operandFault .modsq a m = none ↔ m ≠ 0#64 := by
  simp [operandFault]

@[simp] theorem operandFault_modpow_eq_none {a m : Word} : operandFault .modpow a m = none ↔ m ≠ 0#64 := by
  simp [operandFault]

@[simp] theorem operandFault_isprime_eq_none {a m : Word} : operandFault .isprime a m = none ↔ 2#64 ≤ a := by
  simp [operandFault]

@[simp] theorem operandFault_factor {a m : Word} : operandFault .factor a m = none := rfl

/-- The only causes an operand check raises: `DIV_ZERO` by MODSQ and MODPOW, `DOMAIN` by ISPRIME. -/
theorem operandFault_eq_some {i : Instr} {a m : Word} {c : Cause} (h : operandFault i a m = some c) :
    ((i = .modsq ∨ i = .modpow) ∧ m = 0#64 ∧ c = .divZero) ∨ (i = .isprime ∧ a < 2#64 ∧ c = .domain) := by
  cases i <;> simp only [operandFault] at h
  · split at h <;> cases h; exact .inl ⟨.inl rfl, by assumption, rfl⟩
  · split at h <;> cases h; exact .inl ⟨.inr rfl, by assumption, rfl⟩
  · split at h <;> cases h; exact .inr ⟨rfl, by assumption, rfl⟩
  · cases h

/-! ### The command write -/

/-- A faulted block ignores a command write. -/
theorem commandWrite_of_fault {idle : Block → Block} {b : Block} (h : b.fault = true) : commandWrite idle b = b := by
  simp [commandWrite, h]

/-- A busy block takes `BUSY_CMD`. -/
theorem commandWrite_of_busy {idle : Block → Block} {b : Block} (hf : b.fault = false) (hb : b.busy = true) :
    commandWrite idle b = raiseFault .busyCmd b := by
  simp [commandWrite, hf, hb]

/-- A ready block does what the command asks. -/
theorem commandWrite_of_ready {idle : Block → Block} {b : Block} (hf : b.fault = false) (hb : b.busy = false) :
    commandWrite idle b = idle b := by
  simp [commandWrite, hf, hb]

/-- Everything a command write of a legal word can do. -/
theorem issue_cases (i : Instr) (b : Block) :
    (b.fault = true ∧ issue i b = b) ∨
    (b.fault = false ∧ b.busy = true ∧ issue i b = raiseFault .busyCmd b) ∨
    (b.fault = false ∧ b.busy = false ∧ ∃ c, operandFault i b.opa b.opm = some c ∧ issue i b = raiseFault c b) ∨
    (b.fault = false ∧ b.busy = false ∧ operandFault i b.opa b.opm = none ∧ issue i b = accept i b) := by
  rcases hf : b.fault with _ | _
  · rcases hb : b.busy with _ | _
    · rcases hc : operandFault i b.opa b.opm with _ | c
      · exact .inr (.inr (.inr ⟨rfl, rfl, rfl, by
          simp [issue, commandWrite_of_ready hf hb, checkAndAccept, hc]⟩))
      · exact .inr (.inr (.inl ⟨rfl, rfl, c, rfl, by
          simp [issue, commandWrite_of_ready hf hb, checkAndAccept, hc]⟩))
    · exact .inr (.inl ⟨rfl, rfl, commandWrite_of_busy hf hb⟩)
  · exact .inl ⟨rfl, commandWrite_of_fault hf⟩

/-- Everything a command write of an illegal word can do. -/
theorem rejectWord_cases (b : Block) :
    (b.fault = true ∧ rejectWord b = b) ∨
    (b.fault = false ∧ b.busy = true ∧ rejectWord b = raiseFault .busyCmd b) ∨
    (b.fault = false ∧ b.busy = false ∧ rejectWord b = raiseFault .illegalCmd b) := by
  rcases hf : b.fault with _ | _
  · rcases hb : b.busy with _ | _
    · exact .inr (.inr ⟨rfl, rfl, commandWrite_of_ready hf hb⟩)
    · exact .inr (.inl ⟨rfl, rfl, commandWrite_of_busy hf hb⟩)
  · exact .inl ⟨rfl, commandWrite_of_fault hf⟩

/-- Everything a write to `CMD` can do: nothing, one fault entry, or the acceptance of the decoded command. -/
theorem commandWord_cases (data : Word) (b : Block) :
    (b.fault = true ∧ commandWord data b = b) ∨
    (b.fault = false ∧ ∃ c, c ≠ .none ∧ commandWord data b = raiseFault c b) ∨
    (b.fault = false ∧ b.busy = false ∧
      ∃ i, decode data = .instr i ∧ operandFault i b.opa b.opm = none ∧ commandWord data b = accept i b) := by
  unfold commandWord
  rcases decode data with i | r
  · rcases issue_cases i b with ⟨hf, h⟩ | ⟨hf, _, h⟩ | ⟨hf, _, c, hc, h⟩ | ⟨hf, hb, hc, h⟩
    · exact .inl ⟨hf, h⟩
    · exact .inr (.inl ⟨hf, _, by decide, h⟩)
    · refine .inr (.inl ⟨hf, c, ?_, h⟩)
      rcases operandFault_eq_some hc with ⟨_, _, rfl⟩ | ⟨_, _, rfl⟩ <;> decide
    · exact .inr (.inr ⟨hf, hb, i, rfl, hc, h⟩)
  · rcases rejectWord_cases b with ⟨hf, h⟩ | ⟨hf, _, h⟩ | ⟨hf, _, h⟩
    · exact .inl ⟨hf, h⟩
    · exact .inr (.inl ⟨hf, _, by decide, h⟩)
    · exact .inr (.inl ⟨hf, _, by decide, h⟩)

/-! ### The port write -/

/-- A write to `CMD` is a command write. -/
theorem portWrite_cmd (data : Word) (b : Block) : portWrite 0#6 data b = commandWord data b := rfl

/-- Everything a write to another index can do: store one operand register of an unfaulted block, or nothing. -/
theorem portWrite_register_cases {idx : Index} (h : idx ≠ 0#6) (data : Word) (b : Block) :
    portWrite idx data b = b ∨
    (b.fault = false ∧ (portWrite idx data b = { b with opa := data } ∨ portWrite idx data b = { b with opb := data } ∨
      portWrite idx data b = { b with opm := data })) := by
  have h0 : idx ≠ regIndex .cmd := h
  rcases hf : b.fault with _ | _
  · unfold portWrite
    rw [if_neg h0]
    simp only [hf]
    split_ifs <;> simp_all
  · exact .inl (by unfold portWrite; rw [if_neg h0]; simp [hf])

/-! ### The meanings -/

/-- What each command's completion writes. -/
def resultOf : Instr → Block → Block
  | .modsq => modsqResult
  | .modpow => modpowResult
  | .isprime => isprimeResult
  | .factor => factorResult

/-- Every arm of `exec` is the shared shape with its own result. -/
theorem exec_eq (i : Instr) (s : State) : exec i s = commandStep i (resultOf i) s := by cases i <;> rfl

/-- On the host's turn a command is a command write. -/
theorem exec_host {i : Instr} {s : State} (h : s.turn = .host) :
    exec i s = .next { s with block := issue i s.block } := by
  rw [exec_eq, commandStep, h]

/-- On the engine's turn, with the command running and its latches in its domain, it completes. -/
theorem exec_engine {i : Instr} {s : State} (ht : s.turn = .engine) (hb : s.block.busy = true)
    (ho : s.block.opc = opcodeOf i) (hl : operandFault i s.block.la s.block.lm = none) :
    exec i s = .next { s with block := finish (resultOf i s.block) } := by
  rw [exec_eq, commandStep, ht]
  simp [completion, ht, hb, ho, hl]

/-- Everything the meaning of a command can do when it answers a next state. -/
theorem exec_next_cases {i : Instr} {s t : State} (h : exec i s = .next t) :
    (s.turn = .host ∧ t = { s with block := issue i s.block }) ∨
    (s.turn = .engine ∧ s.block.busy = true ∧ s.block.opc = opcodeOf i ∧
      operandFault i s.block.la s.block.lm = none ∧ t = { s with block := finish (resultOf i s.block) }) ∨
    (s.turn = .engine ∧ ¬ (s.block.busy = true ∧ s.block.opc = opcodeOf i) ∧ t = s) := by
  rcases ht : s.turn with _ | _
  · rw [exec_host ht] at h
    injection h with h
    exact .inl ⟨rfl, by rw [← h, ht]⟩
  · rw [exec_eq, commandStep, ht] at h
    simp only [completion] at h
    split at h
    · next hen =>
      rcases hl : operandFault i s.block.la s.block.lm with _ | c
      · rw [hl] at h
        injection h with h
        exact .inr (.inl ⟨rfl, hen.1, hen.2, rfl, by rw [← h, ht]⟩)
      · rw [hl] at h; cases h
    · next hen =>
      injection h with h
      exact .inr (.inr ⟨rfl, hen, h.symm⟩)

/-- No meaning refuses. -/
theorem exec_ne_refused (i : Instr) (s : State) (r : Refusal) : exec i s ≠ .refused r := by
  rw [exec_eq]
  unfold commandStep completion
  split
  · rintro ⟨⟩
  · split
    · split <;> rintro ⟨⟩
    · rintro ⟨⟩

/-! ### A host line, a turn, a step -/

/-- A host write, of any word to any index, changes the block as the port write does and nothing else. -/
theorem performOp_write {s : State} (ht : s.turn = .host) (idx : Index) (data : Word) :
    performOp (.write idx data) s = .next { s with block := portWrite idx data s.block } := by
  unfold performOp
  by_cases hi : idx = regIndex .cmd
  · subst hi
    simp only [if_true, performCommand, portWrite, commandWord]
    rcases decode data with i | r
    · exact exec_host ht
    · rfl
  · simp [hi]

/-- The block after a host line. -/
def blockAfter : HostOp → Block → Block
  | .write idx data, b => portWrite idx data b
  | .read _, b => b
  | .wait, b => b
  | .readFactors, b => b
  | .reset, _ => Block.reset

/-- A host line always has a next state; it leaves the turn and the schedule alone, and this is its block. -/
theorem performOp_next {s : State} (ht : s.turn = .host) (op : HostOp) :
    ∃ t, performOp op s = .next t ∧ t.block = blockAfter op s.block ∧ t.turn = s.turn ∧ t.schedule = s.schedule := by
  cases op with
  | write idx data => exact ⟨_, performOp_write ht idx data, rfl, rfl, rfl⟩
  | read idx => exact ⟨_, rfl, rfl, rfl, rfl⟩
  | wait => exact ⟨_, rfl, by simp [blockAfter], by simp, by simp⟩
  | readFactors => exact ⟨_, rfl, by simp [blockAfter], by simp, by simp⟩
  | reset => exact ⟨_, rfl, rfl, rfl, rfl⟩

/-- A step of the host with nothing left to do only passes the turn. -/
theorem step_host_idle {s : State} (ht : s.turn = .host) (hp : s.program = []) : step s = .next (passTurn s) := by
  simp [step, agentTurn, ht, hostTurn, hp]

/-- A step of the host performs its next line. -/
theorem step_host {s : State} {op : HostOp} {rest : List HostOp} (ht : s.turn = .host) (hp : s.program = op :: rest) :
    step s = passOutcome (performOp op { s with program := rest }) := by
  simp [step, agentTurn, ht, hostTurn, hp]

/-- A step of the host whose next line is a write: the port write, and the turn passes. -/
theorem step_host_write {s : State} {idx : Index} {data : Word} {rest : List HostOp} (ht : s.turn = .host)
    (hp : s.program = .write idx data :: rest) :
    step s = .next (passTurn { s with program := rest, block := portWrite idx data s.block }) := by
  rw [step_host ht hp, performOp_write (s := { s with program := rest }) ht]
  rfl

/-- A step of the engine with no command running only passes the turn. -/
theorem step_engine_idle {s : State} (ht : s.turn = .engine) (hb : s.block.busy = false) :
    step s = .next (passTurn s) := by
  simp [step, agentTurn, ht, engineTurn, hb]

/-- A step of the engine completes the command that `OPC` names. -/
theorem step_engine {s : State} {i : Instr} (ht : s.turn = .engine) (hb : s.block.busy = true)
    (ho : s.block.opc = opcodeOf i) : step s = passOutcome (exec i s) := by
  simp [step, agentTurn, ht, engineTurn, hb, ho, commandOf_opcodeOf]

/-- Everything a step that answers a next state did to the block. -/
theorem step_block_cases {s t : State} (h : step s = .next t) :
    (s.turn = .host ∧ s.program = [] ∧ t.block = s.block) ∨
    (s.turn = .host ∧ ∃ op rest, s.program = op :: rest ∧ t.block = blockAfter op s.block) ∨
    (s.turn = .engine ∧ s.block.busy = false ∧ t.block = s.block) ∨
    (s.turn = .engine ∧ s.block.busy = true ∧ ∃ i, s.block.opc = opcodeOf i ∧
      operandFault i s.block.la s.block.lm = none ∧ t.block = finish (resultOf i s.block)) := by
  rcases ht : s.turn with _ | _
  · rcases hp : s.program with _ | ⟨op, rest⟩
    · rw [step_host_idle ht hp] at h
      injection h with h
      exact .inl ⟨rfl, rfl, by rw [← h]; simp⟩
    · rw [step_host ht hp] at h
      obtain ⟨u, hu, rfl⟩ := passOutcome_next_inv h
      obtain ⟨v, hv, hb, -, -⟩ := performOp_next (s := { s with program := rest }) ht op
      rw [hu] at hv
      injection hv with hv
      exact .inr (.inl ⟨rfl, op, rest, rfl, by rw [passTurn_block, hv, hb]⟩)
  · rcases hb : s.block.busy with _ | _
    · rw [step_engine_idle ht hb] at h
      injection h with h
      exact .inr (.inr (.inl ⟨rfl, rfl, by rw [← h]; simp⟩))
    · rcases ho : commandOf s.block.opc with _ | i
      · simp [step, agentTurn, ht, engineTurn, hb, ho] at h
      · have ho' := commandOf_eq_some_iff.mp ho
        rw [step_engine ht hb ho'] at h
        obtain ⟨u, hu, rfl⟩ := passOutcome_next_inv h
        rcases exec_next_cases hu with ⟨ht', _⟩ | ⟨_, _, _, hl, rfl⟩ | ⟨_, hn, _⟩
        · rw [ht] at ht'; cases ht'
        · exact .inr (.inr (.inr ⟨rfl, rfl, i, ho', hl, by simp⟩))
        · exact absurd ⟨hb, ho'⟩ hn

/-- A run of one step more is the step and then the run. -/
theorem run_succ {s t : State} (n : Nat) (h : step s = .next t) :
    Host.Core.run Sys2Proof.core (n + 1) s = Host.Core.run Sys2Proof.core n t := by
  have h' : Sys2Proof.core.step s = .next t := h
  simp only [Host.Core.run, h']

end Sys2Proof.Machine
end

