-- ==== Sys2Proof/Laws/PerInstr.lean ====
section
/-! SUPPORT. The family of statements made per instruction: the word of each command, written as 30_encoding.md R63 gives
it, is what the encoder writes and what the decoder reads. -/

namespace Sys2Proof.Laws.CommandWord

/-- The word that the opcode map gives a command (R63). -/
def tableWord : Instr → Word
  | .modsq => 0x0000000000000001
  | .modpow => 0x0000000000000002
  | .isprime => 0x0000000000000003
  | .factor => 0x0000000000000004

/-- A command is well formed, and the map's word is its encoding and decodes to it. -/
def Statement (i : Instr) : Prop :=
  i.wf = true ∧ encode i = tableWord i ∧ decode (tableWord i) = .instr i

theorem modsq : Statement .modsq := by unfold Statement; decide

theorem modpow : Statement .modpow := by unfold Statement; decide

theorem isprime : Statement .isprime := by unfold Statement; decide

theorem factor : Statement .factor := by unfold Statement; decide

end Sys2Proof.Laws.CommandWord
end

