-- ==== Sys2Proof/Tests/Slice0.lean ====
section
/-! SUPPORT. Tests, each on one step of a small state, with the expected values from spec/ (the vectors of
95_test_vectors.md are named beside them), and a witness for every obligation that has hypotheses: a state and operands
that meet all of them together. -/

namespace Sys2Proof.Tests

open Sys2Proof Sys2Proof.Machine Sys2Proof.Claims

/-- The outcome is a next state that passes `p`. -/
def answers (o : Host.Outcome State Fault Refusal) (p : State → Bool) : Bool :=
  match o with
  | .next t => p t
  | .fault _ => false
  | .refused _ => false

/-- The outcome is a fault of the model. -/
def stops (o : Host.Outcome State Fault Refusal) : Bool :=
  match o with
  | .next _ => false
  | .fault _ => true
  | .refused _ => false

/-- An idle block with operands `a`, `e`, `m`. -/
def idle (a e m : Word) : Block := { Block.reset with opa := a, opb := e, opm := m }

/-- A block that runs command `i`, latched from operands `a`, `e`, `m`. -/
def running (i : Instr) (a e m : Word) : Block := accepted i (idle a e m)

/-- A faulted block. -/
def dead : Block := faulted .divZero (idle 1 2 0)

/-- The host's turn, with these lines to perform. -/
def host (b : Block) (lines : List HostOp) : State := ⟨b, .host, [], lines, []⟩

/-- The engine's turn. -/
def engine (b : Block) : State := ⟨b, .engine, [], [], []⟩

/-- The value that one engine turn leaves in `RES`. -/
def gives (i : Instr) (a e m r : Word) : Bool :=
  answers (exec i (engine (running i a e m))) fun t => t.block.res == r && t.block.done && !t.block.busy

/-- The pairs that one engine turn leaves in the factor file. -/
def factors (n : Word) (pairs : List (Word × Word)) : Bool :=
  answers (exec .factor (engine (running .factor n 0 0))) fun t =>
    t.block.fp.toList.zip t.block.fe.toList == pairs ++ List.replicate (15 - pairs.length) (0, 0) &&
      t.block.fcnt.toNat == pairs.length

/-! ### Well-formedness -/

theorem test_wf_refuses_fp_15 : (Reg.fp 15).wf = false ∧ (Reg.fp 14).wf = true := by decide

theorem test_wf_refuses_fe_15 : (Reg.fe 15).wf = false ∧ (Reg.fe 14).wf = true := by decide

/-! ### Decoding: words written out from R60 and R63, and illegal ones (I8 to I12) -/

theorem test_decode_modsq : decode 0b1#64 = .instr .modsq := by decide

theorem test_decode_modpow : decode 0b10#64 = .instr .modpow := by decide

theorem test_decode_isprime : decode 0b11#64 = .instr .isprime := by decide

theorem test_decode_factor : decode 0b100#64 = .instr .factor := by decide

theorem test_decode_illegal :
    decode 0#64 = .reject .illegalOpcode ∧ decode 5#64 = .reject .illegalOpcode ∧
    decode 0xFF#64 = .reject .illegalOpcode ∧ decode 0x101#64 = .reject .reservedBits ∧
    decode 0x8000000000000001#64 = .reject .reservedBits := by decide

theorem test_table_word :
    decodeTableWord 64 3 = some .isprime ∧ decodeTableWord 8 3 = some .isprime ∧
    decodeTableWord 64 (2 ^ 64 + 3) = none ∧ decodeTableWord 8 0x101 = none := by decide

/-- The first command after reset: DIV_ZERO, DIV_ZERO, DOMAIN, accepted (I4 to I7). -/
theorem test_first_command_after_reset :
    answers (step (State.reset.withFetchWord 64 1)) (fun t => statusWord t.block == 0x14#64) = true ∧
    answers (step (State.reset.withFetchWord 64 2)) (fun t => statusWord t.block == 0x14#64) = true ∧
    answers (step (State.reset.withFetchWord 64 3)) (fun t => statusWord t.block == 0x24#64) = true ∧
    answers (step (State.reset.withFetchWord 64 4)) (fun t => statusWord t.block == 0x01#64) = true := by decide

/-! ### Results -/

/-- E3, E4, and the rows 6 mod 37, `M-1` mod `2^63` and modulus 1 of V-SQ. -/
theorem test_modsq :
    gives .modsq 47 0 99 31 = true ∧ gives .modsq 0xFFFFFFFFFFFFFFC5 0 0xFFFFFFFFFFFFFFAD 576 = true ∧
    gives .modsq 6 0 37 36 = true ∧ gives .modsq 0xFFFFFFFFFFFFFFFF 0 0x8000000000000000 1 = true ∧
    gives .modsq 5 0 1 0 = true := by decide

/-- E1, E2, and the rows 0^0 mod 1, 0^1 mod 1, 3^13 mod 50 of V-MP. -/
theorem test_modpow :
    gives .modpow 2 10 10 4 = true ∧
    gives .modpow 0xFFFFFFFFFFFFFFC5 0xFFFFFFFFFFFFFFAD 0xFFFFFFFFFFFFFFA1 4561031516192244567 = true ∧
    gives .modpow 0 0 1 1 = true ∧ gives .modpow 0 1 1 0 = true ∧ gives .modpow 3 13 50 23 = true := by decide +kernel

/-- Composites of V-IP: 9, 561, 2047, 341550071728321 (E10) and the one that only witness 37 rejects. -/
theorem test_isprime_composite :
    gives .isprime 9 0 0 0 = true ∧ gives .isprime 561 0 0 0 = true ∧ gives .isprime 2047 0 0 0 = true ∧
    gives .isprime 341550071728321 0 0 0 = true ∧ gives .isprime 3825123056546413051 0 0 0 = true := by decide +kernel

/-- Primes of V-IP: 2, 37, 41, `2^61-1`, `M-59`. -/
theorem test_isprime_prime :
    gives .isprime 2 0 0 1 = true ∧ gives .isprime 37 0 0 1 = true ∧ gives .isprime 41 0 0 1 = true ∧
    gives .isprime 0x1fffffffffffffff 0 0 1 = true ∧ gives .isprime 0xffffffffffffffc5 0 0 1 = true := by decide +kernel

/-- Rows 0, 7, 49, 360, 1001 of V-FA. -/
theorem test_factor_small :
    factors 0 [] = true ∧ factors 7 [(7, 1)] = true ∧ factors 49 [(7, 2)] = true ∧
    factors 360 [(2, 3), (3, 2), (5, 1)] = true ∧ factors 1001 [(7, 1), (11, 1), (13, 1)] = true := by decide +kernel

/-- Rows `2^63`, `3^40` of V-FA, and the row that fills the factor file. -/
theorem test_factor_large :
    factors 0x8000000000000000 [(2, 63)] = true ∧ factors 0xa8b8b452291fe821 [(3, 40)] = true ∧
    factors 614889782588491410 [(2, 1), (3, 1), (5, 1), (7, 1), (11, 1), (13, 1), (17, 1), (19, 1), (23, 1), (29, 1),
      (31, 1), (37, 1), (41, 1), (43, 1), (47, 1)] = true := by decide +kernel

/-- The bound's own test values (00_scope.md R7, 43_factor.md R124). -/
theorem test_isqrt : isqrt64 0xfffffff600000019 = 4294967291 ∧ isqrt64 0xfffffff600000018 = 4294967290 := by decide

/-! ### Witnesses: the hypotheses of the obligations can be met -/

theorem witness_StepRunsTheCommandWritten :
    (host (idle 47 0 99) [.write 0 1]).turn = .host ∧ (host (idle 47 0 99) [.write 0 1]).program = .write 0#6 1#64 :: [] ∧
    decode 1#64 = .instr .modsq ∧ Instr.modsq.wf = true := by decide

theorem witness_StepRunsTheCommandRunning :
    (engine (running .factor 9 0 0)).turn = .engine ∧ (engine (running .factor 9 0 0)).block.busy = true ∧
    (engine (running .factor 9 0 0)).block.opc = opcodeByte .factor := by decide

/-- Both clauses: a schedule that names the next agent, and one that has run out. -/
theorem witness_TurnPassesByScheduleThenFairly :
    answers (passOutcome (.next { host Block.reset [] with schedule := [.engine] })) (fun t => t.turn == .engine) = true ∧
    answers (passOutcome (.next (host Block.reset []))) (fun t => t.turn == .host) = true ∧
    answers (passOutcome (.next (host (running .factor 9 0 0) []))) (fun t => t.turn == .engine) = true := by decide

/-- The reserved ranges at their ends, and the last registers of the factor file. -/
theorem witness_PortReadFollowsTheMap :
    (∀ idx ∈ [0x07#6, 0x0F#6, 0x1F#6, 0x2F#6, 0x3F#6],
      ((0x07 ≤ idx.toNat ∧ idx.toNat ≤ 0x0F) ∨ idx.toNat = 0x1F ∨ 0x2F ≤ idx.toNat) ∧ regAt idx = none) ∧
    regAt 0x06 = some .fcnt ∧ regAt 0x10 = some (.fp 0) ∧ regAt 0x1E = some (.fp 14) ∧ regAt 0x20 = some (.fe 0) ∧
    regAt 0x2E = some (.fe 14) ∧
    (host dead [.read 0x2E]).turn = .host ∧ (host dead [.read 0x2E]).program = .read 0x2E#6 :: [] := by decide

/-- The operand registers, a read-only register, the ends of the ignored range, and a faulted block. -/
theorem witness_PortWriteFollowsTheMap :
    (∀ idx ∈ [0x00#6, 0x01#6, 0x02#6, 0x03#6, 0x04#6, 0x05#6, 0x3F#6],
      (host (idle 1 2 3) [.write idx 9]).turn = .host ∧ (host (idle 1 2 3) [.write idx 9]).block.fault = false ∧
      (host (idle 1 2 3) [.write idx 9]).program = .write idx 9#64 :: []) ∧
    (host dead [.write 0x02 9]).block.fault = true := by decide

/-- Every clause at its boundary values. -/
theorem witness_CommandWriteDecidesInPriorityOrder :
    dead.fault = true ∧
    (running .modsq 1 1 1).fault = false ∧ (running .modsq 1 1 1).busy = true ∧
    (idle 0 0 0).fault = false ∧ (idle 0 0 0).busy = false ∧
    (0#64).toNat = 0 ∧ 5 ≤ (5#64).toNat ∧ 5 ≤ (0xFFFFFFFFFFFFFFFF#64).toNat ∧
    (idle 0 0 0).opm = 0#64 ∧ (idle 0 0 0).opa.toNat < 2 ∧ (idle 1 0 0).opa.toNat < 2 := by decide

theorem witness_operandsOk :
    operandsOk .modsq (idle 0 0 1) ∧ operandsOk .modpow (idle 0 0 1) ∧ operandsOk .isprime (idle 2 0 0) ∧
    operandsOk .factor (idle 0 0 0) := by unfold operandsOk; decide

theorem witness_IllegalWordTakesIllegalCmd :
    ([0#64, 5#64, 0xFF#64, 0x101#64, 0x8000000000000001#64].all fun w => decide
      ((host (idle 0 0 7) [.write 0 w]).turn = .host ∧ (host (idle 0 0 7) [.write 0 w]).program = .write 0#6 w :: [] ∧
      (host (idle 0 0 7) [.write 0 w]).block.fault = false ∧ (host (idle 0 0 7) [.write 0 w]).block.busy = false ∧
      (w.toNat / 256 ≠ 0 ∨ w.toNat % 256 ∉ [1, 2, 3, 4]))) = true := by decide +kernel

theorem witness_CommandIsAccepted :
    (host (idle 2 0 1) []).turn = .host ∧ (idle 2 0 1).fault = false ∧ (idle 2 0 1).busy = false ∧
    operandsOk .modsq (idle 2 0 1) ∧ operandsOk .modpow (idle 2 0 1) ∧ operandsOk .isprime (idle 2 0 1) ∧
    operandsOk .factor (idle 2 0 1) := by unfold operandsOk; decide

theorem witness_ZeroModulusTakesDivZero :
    ((host (idle 5 0 0) []).turn = .host ∧ (idle 5 0 0).fault = false ∧ (idle 5 0 0).busy = false ∧
      (idle 5 0 0).opm = 0#64) ∧
    (∀ i ∈ [Instr.isprime, .factor], (idle 2 0 0).cause ≠ .divZero ∧
      answers (exec i (host (idle 2 0 0) [])) (fun t => t.block.busy) = true ∧
      answers (exec i (engine (running i 2 0 0))) (fun t => t.block.done) = true) := by decide

theorem witness_SmallCandidateTakesDomain :
    ([0#64, 1#64].all fun a => decide ((host (idle a 0 0) []).turn = .host ∧ (idle a 0 0).fault = false ∧
      (idle a 0 0).busy = false ∧ (idle a 0 0).opa.toNat < 2)) = true := by decide +kernel

theorem witness_BusyCommandWriteAbandons :
    (host (running .factor 9 0 0) [.write 0 4]).turn = .host ∧
    (host (running .factor 9 0 0) [.write 0 4]).program = .write 0#6 4#64 :: [] ∧
    (running .factor 9 0 0).fault = false ∧ (running .factor 9 0 0).busy = true ∧
    answers (step (host (running .factor 9 0 0) [.write 0 4]))
      (fun t => (engine t.block).turn == .engine && t.block == faulted .busyCmd (running .factor 9 0 0)) = true := by decide

/-- The invariants hold of a faulted block. -/
theorem witness_inv_dead : dead.Inv := by
  constructor <;> decide

/-- The invariants hold of a busy block, for each command. -/
theorem witness_inv_running (i : Instr) : (running i 2 0 1).Inv := by
  cases i <;> constructor <;> decide

/-- The invariants hold of a block whose factor file holds a factorization, and that runs a command: the operands of
P2 (95_test_vectors.md) once FACTOR has completed. -/
theorem witness_inv_factored :
    Block.Inv { running .isprime 7 0 0 with
      fcnt := 2#4, fp := (Vector.replicate 15 0#64 |>.set 0 2#64 |>.set 1 7#64)
      fe := (Vector.replicate 15 0#64 |>.set 0 3#64 |>.set 1 1#64) } := by
  constructor <;> decide

theorem witness_FaultedBlockLeavesOnlyByReset :
    dead.fault = true ∧ answers (step (host dead [.write 2 5])) (fun t => t.block == dead) = true ∧
    answers (step (host dead [.read 1])) (fun t => t.reads == [⟨1#6, 0x14#64⟩]) = true ∧
    answers (step (engine dead)) (fun t => t.block == dead) = true ∧
    answers (step (host dead [.reset])) (fun t => t.block == Block.reset) = true := by decide

theorem witness_OnlyCommandWritesRaiseFaults :
    (idle 0 0 0).fault = false ∧ answers (step (host (idle 0 0 0) [.write 0 1])) (fun t => t.block.fault) = true := by decide

theorem witness_FaultEntryChangesFlagsOnly :
    (running .isprime 2 0 0).fault = false ∧
    answers (step (host (running .isprime 2 0 0) [.write 0 3])) (fun t => t.block.fault && !t.block.busy) = true := by decide

theorem witness_ResetZeroesEveryItem :
    (host dead [.reset]).turn = .host ∧ (host dead [.reset]).program = .reset :: [] := by decide

/-- MODSQ with the smallest and the largest modulus. -/
theorem witness_ModsqCompletes :
    ([1#64, 0xFFFFFFFFFFFFFFFF#64].all fun m => decide ((engine (running .modsq 5 0 m)).turn = .engine ∧
      (running .modsq 5 0 m).busy = true ∧ (running .modsq 5 0 m).opc = 1#8 ∧ (running .modsq 5 0 m).lm ≠ 0#64)) = true := by
  decide +kernel

/-- MODPOW with exponent 0 and 1, and with the smallest and the largest modulus. -/
theorem witness_ModpowCompletes :
    ([0#64, 1#64].all fun e => [1#64, 0xFFFFFFFFFFFFFFFF#64].all fun m => decide
      ((engine (running .modpow 5 e m)).turn = .engine ∧ (running .modpow 5 e m).busy = true ∧
      (running .modpow 5 e m).opc = 2#8 ∧ (running .modpow 5 e m).lm ≠ 0#64)) = true := by decide +kernel

/-- ISPRIME of the smallest prime and the smallest composite. -/
theorem witness_IsprimeCompletes :
    ([2#64, 4#64].all fun n => decide ((engine (running .isprime n 0 0)).turn = .engine ∧
      (running .isprime n 0 0).busy = true ∧ (running .isprime n 0 0).opc = 3#8 ∧
      2 ≤ (running .isprime n 0 0).la.toNat)) = true := by decide +kernel

theorem witness_IsprimeAcceptsEveryPrime :
    (engine (running .isprime 2 0 0)).turn = .engine ∧ (running .isprime 2 0 0).busy = true ∧
    (running .isprime 2 0 0).opc = 3#8 ∧ (running .isprime 2 0 0).la.toNat.Prime :=
  ⟨rfl, rfl, rfl, Nat.prime_two⟩

/-- Clause by clause: 2 and the largest even word; the ends of the witness set; a proper multiple of each end. -/
theorem witness_WitnessDivisionDecidesFirst :
    ([2#64, 0xFFFFFFFFFFFFFFFE#64].all fun n => decide (2 ≤ n.toNat ∧ n.toNat % 2 = 0)) = true ∧
    ([2#64, 37#64].all fun n => decide (n.toNat ∈ witnessSet)) = true ∧
    ([(4#64, 2#64), (1369#64, 37#64)].all fun na => decide (na.2.toNat ∈ witnessSet ∧ na.2.toNat < na.1.toNat ∧
      na.1.toNat % na.2.toNat = 0)) = true := by decide +kernel

theorem witness_FactorCompletes :
    ([0#64, 1#64, 0xFFFFFFFFFFFFFFFF#64].all fun n => decide ((engine (running .factor n 0 0)).turn = .engine ∧
      (running .factor n 0 0).busy = true ∧ (running .factor n 0 0).opc = 4#8)) = true := by decide +kernel

/-- Clause by clause: no command running, another command running, a zero modulus, a small candidate, no such opcode. -/
theorem witness_EngineOutsideItsDomain :
    (engine (idle 1 2 3)).turn = .engine ∧ (idle 1 2 3).busy = false ∧
    (running .modsq 1 2 3).opc ≠ opcodeByte .factor ∧
    ((running .modsq 1 2 0).busy = true ∧ (running .modsq 1 2 0).lm = 0#64 ∧ (running .modsq 1 2 0).opc = 1#8) ∧
    ((running .modpow 1 2 0).busy = true ∧ (running .modpow 1 2 0).lm = 0#64 ∧ (running .modpow 1 2 0).opc = 2#8) ∧
    ((running .isprime 1 2 0).busy = true ∧ (running .isprime 1 2 0).opc = 3#8 ∧ (running .isprime 1 2 0).la.toNat < 2) ∧
    stops (step (engine { idle 1 2 3 with busy := true, opc := 0#8 })) = true ∧
    stops (step (engine { idle 1 2 3 with busy := true, opc := 5#8 })) = true := by decide

/-- The least and the greatest modulus, a single low and a single high bit, the extreme shifts. -/
theorem witness_ArithmeticPrimitives :
    1 ≤ (1#64).toNat ∧ 1 ≤ (0xFFFFFFFFFFFFFFFF#64).toNat ∧ (1#64 ≠ 0#64) ∧ (0x8000000000000000#64 ≠ 0#64) ∧
    ctz64 1 = 0 ∧ ctz64 0x8000000000000000 = 63 ∧ 0 ≤ 63 ∧ 63 ≤ 63 := by decide

/-- Modulus 1 for the laws of the modular functions (ModsqMayReduceFirst, ModpowLoopLaw at `k` 0 and 64,
ModpowEquivalentRealisations). -/
theorem witness_modular_laws : 1 ≤ (1#64).toNat ∧ 0 ≤ 64 ∧ 64 ≤ 64 ∧ modpow 7 0 1 = 1 ∧ modpow 7 1 1 = 0 := by decide

theorem witness_FactorIsThePrimeFactorization :
    (0#64).toNat ≤ 1 ∧ (1#64).toNat ≤ 1 ∧ 2 ≤ (2#64).toNat ∧ (2, 1) ∈ factor 2 ∧ ¬ (49#64).toNat ≤ 1 ∧
    (7, 2) ∈ factor 49 := by decide

/-- The last step of a wheel period, and a remaining value that the first two candidates do not divide. -/
theorem witness_WheelEnumeratesCoprimes :
    7 < 8 ∧ 7 ≤ 7 ∧ Nat.Coprime 7 30 ∧ (∀ j < 2, (wheelAt j).1 ≤ 13 ∧ ¬ (wheelAt j).1 ∣ (⟨169, []⟩ : FactorWork).rem) := by
  decide

theorem witness_WalkByProductIsTheSame :
    1 ≤ (⟨1, []⟩ : FactorWork).rem ∧ (⟨1, []⟩ : FactorWork).rem < 2 ^ 64 ∧
    1 ≤ (⟨2 ^ 64 - 1, []⟩ : FactorWork).rem ∧ (⟨2 ^ 64 - 1, []⟩ : FactorWork).rem < 2 ^ 64 := by decide

/-- A command write that is accepted and one that faults. -/
theorem witness_CommandWriteFrame :
    (host (idle 5 0 3) []).turn = .host ∧
    answers (exec .modsq (host (idle 5 0 3) [])) (fun t => !t.block.fault && t.block.busy) = true ∧
    answers (exec .modsq (host (idle 5 0 0) [])) (fun t => t.block.fault) = true := by decide

theorem witness_CompletionFrame :
    (engine (running .modsq 5 0 3)).turn = .engine ∧ Instr.modsq ≠ .factor ∧
    answers (exec .modsq (engine (running .modsq 5 0 3))) (fun t => t.block.res == 1#64) = true ∧
    answers (exec .factor (engine (running .factor 9 0 0))) (fun t => t.block.fcnt == 1#4) = true := by decide

theorem witness_OperandsChangeOnlyByHostWrite :
    answers (step (host (idle 1 2 3) [.write 2 9])) (fun t => t.block.opa != 1#64) = true ∧
    answers (step (host (idle 1 2 3) [.write 3 9])) (fun t => t.block.opb != 2#64) = true ∧
    answers (step (host (idle 1 2 3) [.write 4 9])) (fun t => t.block.opm != 3#64) = true ∧
    answers (step (host dead [.reset])) (fun t => t.block.opa != dead.opa) = true := by decide

theorem witness_ResultsChangeOnlyAtTheirCompletion :
    answers (step (engine (running .modsq 5 0 3))) (fun t => t.block.res != (running .modsq 5 0 3).res) = true ∧
    answers (step (engine (running .factor 9 0 0))) (fun t => t.block.fcnt != (running .factor 9 0 0).fcnt) = true ∧
    answers (step (engine (running .factor 9 0 0))) (fun t => t.block.fp != (running .factor 9 0 0).fp) = true := by decide

theorem witness_OpcAndLatchesChangeOnlyAtAcceptance :
    answers (step (host (idle 5 0 3) [.write 0 1])) (fun t => t.block.opc != (idle 5 0 3).opc) = true ∧
    answers (step (host (idle 5 0 3) [.write 0 1])) (fun t => t.block.la != (idle 5 0 3).la) = true := by decide

/-- `BUSY` set by acceptance; cleared by completion, by `BUSY_CMD` and by reset; `DONE` set by completion, cleared by
acceptance and by a fault. -/
theorem witness_BusyAndDoneChangeAsStated :
    answers (step (host (idle 5 0 3) [.write 0 1])) (fun t => !(idle 5 0 3).busy && t.block.busy) = true ∧
    answers (step (engine (running .modsq 5 0 3))) (fun t => !t.block.busy && t.block.done) = true ∧
    answers (step (host (running .modsq 5 0 3) [.write 0 0])) (fun t => !t.block.busy) = true ∧
    answers (step (host (running .modsq 5 0 3) [.reset])) (fun t => !t.block.busy) = true ∧
    answers (step (host { idle 5 0 3 with done := true } [.write 0 1])) (fun t => !t.block.done) = true ∧
    answers (step (host { idle 5 0 0 with done := true } [.write 0 1])) (fun t => !t.block.done) = true := by decide

/-- The operand writes of P5 under a running MODSQ. -/
theorem witness_OperandWritesWhileBusyDoNotDisturb :
    (engine (running .modsq 47 0 99)).turn = .engine ∧ (running .modsq 47 0 99).fault = false ∧
    (running .modsq 47 0 99).busy = true ∧ ([(2#6, 5#64), (4#6, 0#64)].all fun w => decide (w.1 ≠ 0#6)) = true ∧
    answers (exec .modsq (engine (running .modsq 47 0 99))) (fun t => t.block.res == 31#64) = true := by decide +kernel

/-- `WAIT` on a busy and on an idle block; the pair reads for no pair and for fifteen. -/
theorem witness_HostLoopsReadAndRepeat :
    (host (running .modsq 1 0 1) [.wait]).turn = .host ∧
    (host (running .modsq 1 0 1) [.wait]).program = .wait :: [] ∧
    (host (idle 1 0 1) [.readFactors]).program = .readFactors :: [] ∧
    answers (step (host (running .modsq 1 0 1) [.wait])) (fun t => t.program == [.wait]) = true ∧
    answers (step (host (idle 1 0 1) [.wait])) (fun t => t.program == []) = true ∧
    answers (step (host { idle 1 0 1 with fcnt := 15#4 } [.readFactors]))
      (fun t => t.program.length == 30 && t.program[29]? == some (.read 0x2E#6)) = true := by decide

/-- A step from a state with the invariants (`witness_inv_running`), for the statements about steps. -/
theorem witness_StepKeepsInvariants :
    answers (step (engine (running .isprime 2 0 1))) (fun t => t.block.res == 1#64) = true ∧
    answers (step (host (running .isprime 2 0 1) [])) (fun t => t.block.busy) = true := by decide

/-- A block whose `DONE` is 1 and whose `RES` is current. -/
theorem witness_StepKeepsResultsCurrent :
    resultIsCurrent { running .modsq 5 0 3 with busy := false, done := true, res := 1#64 } ∧
    answers (step (host { running .modsq 5 0 3 with busy := false, done := true, res := 1#64 } [.write 2 9]))
      (fun t => t.block.done) = true := by
  refine ⟨fun _ => ⟨fun _ => by decide, fun h => absurd h (by decide), fun h => absurd h (by decide),
    fun h => absurd h (by decide)⟩, by decide⟩

/-- A busy block with the invariants and a schedule that keeps the engine waiting for two turns. -/
theorem witness_BusyBlockBecomesIdle :
    (running .modsq 2 0 1).busy = true ∧
    answers (Host.Core.run Sys2Proof.core 4 { host (running .modsq 2 0 1) [] with schedule := [.host, .host] })
      (fun t => !t.block.busy && t.block.done) = true := by decide

end Sys2Proof.Tests
end

section
/-! The statements of 00_scope.md: the arithmetic primitives (R7) and whose turn comes next (R8, R9, R178). -/

namespace Sys2Proof.Scope

open Sys2Proof.Machine

/-! ### The arithmetic primitives -/

/-- The powers of two that divide a non-zero word are those up to its `ctz64`: the quotient by the last of them is odd. -/
theorem two_pow_dvd_iff_le_ctz64 {v : Word} (h : v ≠ 0#64) (k : Nat) : 2 ^ k ∣ v.toNat ↔ k ≤ ctz64 v := by
  obtain ⟨-, hdvd, hodd⟩ := ctz64_bits h
  constructor
  · intro hk
    by_contra hgt
    have hnext : 2 ^ ctz64 v * 2 ∣ v.toNat := by
      rw [← pow_succ]
      exact (Nat.pow_dvd_pow 2 (by omega)).trans hk
    have heven : 2 ∣ v.toNat / 2 ^ ctz64 v := Nat.dvd_div_of_mul_dvd hnext
    omega
  · intro hk
    exact (Nat.pow_dvd_pow 2 hk).trans hdvd

/-- Below `2^64` the digit-by-digit root is the library's integer square root. -/
theorem isqrt64_eq_sqrt {v : Nat} (h : v < 2 ^ 64) : isqrt64 v = Nat.sqrt v :=
  Nat.eq_sqrt.mpr (isqrt64_bracket h)

/-- The square of a word does not wrap in 128 bits. -/
theorem toNat_wide_square (t : Word) : (t.setWidth 128 * t.setWidth 128).toNat = t.toNat * t.toNat := by
  have hsquare : t.toNat * t.toNat < 2 ^ 128 := lt_of_lt_of_le (Nat.mul_lt_mul'' t.isLt t.isLt) (by decide)
  rw [BitVec.toNat_mul, BitVec.toNat_setWidth_of_le (by decide), Nat.mod_eq_of_lt hsquare]

/-- Comparing in 128 bits a word's square with a word is comparing the integers. -/
theorem wide_square_le_iff (t v : Word) :
    t.setWidth 128 * t.setWidth 128 ≤ v.setWidth 128 ↔ t.toNat * t.toNat ≤ v.toNat := by
  rw [BitVec.le_def, toNat_wide_square, BitVec.toNat_setWidth_of_le (by decide)]

/-- R7's test of the root: `t` is at most `isqrt64 v` exactly when its square in 128 bits is at most `v`. -/
theorem le_isqrt64_iff (v t : Word) :
    t.toNat ≤ isqrt64 v.toNat ↔ t.setWidth 128 * t.setWidth 128 ≤ v.setWidth 128 := by
  rw [isqrt64_eq_sqrt v.isLt, Nat.le_sqrt, wide_square_le_iff]

/-- Settles O27: `mulmod` and the shift by their integer laws, `ctz64` by the powers of two that divide the word, and the
root by the library's integer square root. -/
theorem arithmeticPrimitives : Obligations.ArithmeticPrimitives := by
  refine ⟨fun a b m hm => ⟨rfl, mulmod_toNat hm⟩, fun v hv => ⟨?_, fun k _ => ?_⟩, le_isqrt64_iff, by decide, by decide,
    by decide, fun v k _ => ushiftRight_toNat v k⟩
  · obtain ⟨hlt, -, -⟩ := ctz64_bits hv
    omega
  · rw [← Nat.dvd_iff_mod_eq_zero, two_pow_dvd_iff_le_ctz64 hv]

/-! ### Whose turn comes next -/

/-- Passing the turn takes the schedule's first agent off it, if there is one. -/
@[simp] theorem passTurn_schedule (s : State) : (passTurn s).schedule = s.schedule.tail := by
  cases hs : s.schedule with
  | nil => rw [passTurn_of_nil hs, hs, List.tail_nil]
  | cons a rest => rw [passTurn_of_cons hs, List.tail_cons]

/-- The next turn is that of the schedule's first agent. -/
theorem passTurn_turn_of_cons {s : State} {a : Agent} {rest : List Agent} (h : s.schedule = a :: rest) :
    (passTurn s).turn = a := by
  rw [passTurn_of_cons h]

/-- With the schedule run out, the engine has the next turn exactly while it has a step to take. -/
theorem passTurn_turn_engine_iff_of_nil {s : State} (h : s.schedule = []) :
    (passTurn s).turn = .engine ↔ s.block.busy = true := by
  rw [passTurn_of_nil h]
  cases s.block.busy <;> simp

/-- Settles O6: the fields that `passTurn` keeps, and its turn on a schedule that names an agent and on an empty one. -/
theorem turnPassesByScheduleThenFairly : Obligations.TurnPassesByScheduleThenFairly := by
  intro s t hnext
  obtain rfl : passTurn s = t := by simpa using hnext
  exact ⟨passTurn_block s, passTurn_program s, passTurn_reads s, passTurn_schedule s,
    fun _ _ => passTurn_turn_of_cons, passTurn_turn_engine_iff_of_nil⟩

end Sys2Proof.Scope
end

section
/-! The value of MODPOW's loop over the integers (41_modpow.md R91 to R93). -/

namespace Sys2Proof.Modular

open Sys2Proof.Machine

/-- A word is non-zero exactly when its number is at least 1. -/
theorem ne_zero_iff_one_le (v : Word) : v ≠ 0#64 ↔ 1 ≤ v.toNat := by
  rw [Nat.one_le_iff_ne_zero, ne_eq, ne_eq, ← BitVec.toNat_inj]; rfl

/-- The lowest bit of a word is its parity. -/
theorem getLsbD_zero_iff (v : Word) : v.getLsbD 0 = true ↔ v.toNat % 2 = 1 := by
  simp [BitVec.getLsbD, Nat.testBit_zero]

/-- With exponent 0 the loop returns its accumulator, whatever fuel is left (R92). -/
@[simp] theorem modpowLoop_zero_exponent (m : Word) (fuel : Nat) (acc b : Word) :
    modpowLoop m fuel acc b 0#64 = acc := by
  cases fuel <;> simp [modpowLoop]

/-- One round with a set bit takes the base into the accumulator; with a clear bit it does not. Either way the product
of accumulator and remaining power is the same modulo `m` (R91). -/
theorem modpow_round {acc b m : Word} (e : Nat) (odd : Bool) (hm : 0 < m.toNat) :
    (if odd then mulmod acc b m else acc).toNat * (mulmod b b m).toNat ^ e ≡
      acc.toNat * b.toNat ^ (2 * e + odd.toNat) [MOD m.toNat] := by
  have hbase : (mulmod b b m).toNat ^ e ≡ b.toNat ^ (2 * e) [MOD m.toNat] := by
    rw [mulmod_toNat hm, pow_mul, pow_two]
    exact (Nat.mod_modEq _ _).pow e
  cases odd with
  | false => simpa using hbase.mul_left acc.toNat
  | true =>
    have hacc : (mulmod acc b m).toNat ≡ acc.toNat * b.toNat [MOD m.toNat] := by
      rw [mulmod_toNat hm]
      exact Nat.mod_modEq _ _
    calc (mulmod acc b m).toNat * (mulmod b b m).toNat ^ e
        ≡ acc.toNat * b.toNat * b.toNat ^ (2 * e) [MOD m.toNat] := hacc.mul hbase
      _ = acc.toNat * b.toNat ^ (2 * e + 1) := by ring

/-- The loop on a non-zero exponent that the fuel covers returns the integer product of the accumulator and the power,
reduced: its last round multiplies, so even modulus 1 reduces (R91, R93). -/
theorem modpowLoop_toNat {m : Word} (hm : 0 < m.toNat) {fuel : Nat} {acc b e : Word} (he : e ≠ 0#64)
    (hfuel : e.toNat < 2 ^ fuel) :
    (modpowLoop m fuel acc b e).toNat = acc.toNat * b.toNat ^ e.toNat % m.toNat := by
  induction fuel generalizing acc b e with
  | zero => exact absurd ((ne_zero_iff_one_le e).mp he) (by simpa using hfuel)
  | succ k ih =>
    have hshift : (e >>> 1).toNat = e.toNat / 2 := by simpa using ushiftRight_toNat e 1
    rw [modpowLoop, if_neg he]
    by_cases hlast : e >>> 1 = 0#64
    · have hpos := (ne_zero_iff_one_le e).mp he
      have hone : e.toNat = 1 := by
        rw [hlast] at hshift
        simp only [BitVec.toNat_ofNat] at hshift
        omega
      rw [hlast, modpowLoop_zero_exponent, if_pos ((getLsbD_zero_iff e).mpr (by omega)), mulmod_toNat hm, hone, pow_one]
    · have hbit : (e.getLsbD 0).toNat = e.toNat % 2 := by
        have := getLsbD_zero_iff e
        cases h : e.getLsbD 0 <;> simp_all
      rw [ih hlast (by rw [hshift]; omega)]
      have hround := modpow_round (acc := acc) (b := b) (e >>> 1).toNat (e.getLsbD 0) hm
      rwa [hbit, hshift, Nat.div_add_mod] at hround

/-- `modpow` is the literal 1 for exponent 0 and the integer power modulo `m` for every other (R92, R93). -/
theorem modpow_toNat {base exponent m : Word} (hm : 0 < m.toNat) :
    (modpow base exponent m).toNat =
      if exponent = 0#64 then 1 else base.toNat ^ exponent.toNat % m.toNat := by
  split
  · next he => rw [modpow, he, modpowLoop_zero_exponent]; rfl
  · next he => simpa [modpow] using modpowLoop_toNat (acc := 1#64) (b := base) hm he exponent.isLt

end Sys2Proof.Modular
end

section
/-! The verdict of ISPRIME is the Miller-Rabin test over the integers (42_isprime.md R100 to R105). -/

namespace Sys2Proof.Primality

open Sys2Proof.Machine Sys2Proof.Claims Sys2Proof.Modular

/-- The squarings of R104 reach `n - 1` exactly when one of the first `count` repeated squares does. -/
theorem squaringReaches_iff {n : Word} (hn : 0 < n.toNat) (count : Nat) (x : Word) :
    squaringReaches n count x = true ↔ ∃ j < count, x.toNat ^ 2 ^ (j + 1) % n.toNat = n.toNat - 1 := by
  have hpred : (n - 1#64).toNat = n.toNat - 1 := BitVec.toNat_sub_of_le (BitVec.le_def.mpr hn)
  induction count generalizing x with
  | zero => simp [squaringReaches]
  | succ k ih =>
    have hsquare : (modsq x n).toNat = x.toNat ^ 2 % n.toNat := by rw [modsq_toNat hn, sq]
    have hhit : modsq x n = n - 1#64 ↔ x.toNat ^ 2 % n.toNat = n.toNat - 1 := by
      rw [← BitVec.toNat_inj, hsquare, hpred]
    have hnext (j : Nat) : (modsq x n).toNat ^ 2 ^ (j + 1) % n.toNat = x.toNat ^ 2 ^ (j + 2) % n.toNat := by
      rw [hsquare, ← Nat.pow_mod, ← pow_mul, ← pow_succ']
    rw [squaringReaches, Nat.exists_lt_succ_left]
    simp [ih, hhit, hnext]

/-- With `n - 1 = d * 2^s` and `s >= 1`, a witness is satisfied exactly when `n` is a strong probable prime to it. -/
theorem witnessSatisfied_iff {n d : Word} {s : Nat} (hn : 2 ≤ n.toNat) (hd : d ≠ 0#64) (hs : 1 ≤ s) (a : Word) :
    witnessSatisfied n d s a = true ↔ strongProbablePrime n.toNat d.toNat s a.toNat := by
  obtain ⟨r, rfl⟩ : ∃ r, s = r + 1 := ⟨s - 1, by omega⟩
  have hn0 : 0 < n.toNat := by omega
  have hpred : (n - 1#64).toNat = n.toNat - 1 := BitVec.toNat_sub_of_le (BitVec.le_def.mpr hn0)
  have hpow : (modpow a d n).toNat = a.toNat ^ d.toNat % n.toNat := by rw [modpow_toNat hn0, if_neg hd]
  have hone : modpow a d n = 1#64 ↔ a.toNat ^ d.toNat % n.toNat = 1 := by
    rw [← BitVec.toNat_inj, hpow]; rfl
  have hlast : modpow a d n = n - 1#64 ↔ a.toNat ^ d.toNat % n.toNat = n.toNat - 1 := by
    rw [← BitVec.toNat_inj, hpow, hpred]
  have hrepeat (j : Nat) : (modpow a d n).toNat ^ 2 ^ (j + 1) % n.toNat =
      a.toNat ^ (d.toNat * 2 ^ (j + 1)) % n.toNat := by
    rw [hpow, ← Nat.pow_mod, ← pow_mul]
  rw [strongProbablePrime, Nat.exists_lt_succ_left]
  simp [witnessSatisfied, hone, hlast, squaringReaches_iff hn0, hrepeat, or_assoc]

/-- For an `n` that is no witness itself, the loop passes exactly when no witness divides `n` and all are satisfied. -/
theorem witnessLoop_iff {n d : Word} {s : Nat} {witnesses : List Word} (hn : n ∉ witnesses) :
    witnessLoop n d s witnesses = true ↔ ∀ a ∈ witnesses, ¬ a.toNat ∣ n.toNat ∧ witnessSatisfied n d s a = true := by
  induction witnesses with
  | nil => simp [witnessLoop]
  | cons a rest ih =>
    obtain ⟨hne, hrest⟩ : n ≠ a ∧ n ∉ rest := by simpa using hn
    have hdvd : n % a = 0#64 ↔ a.toNat ∣ n.toNat := by
      rw [← BitVec.toNat_inj, BitVec.toNat_umod, Nat.dvd_iff_mod_eq_zero]; rfl
    rw [witnessLoop, List.forall_mem_cons]
    by_cases hdiv : a.toNat ∣ n.toNat
    · simp [hdvd, hdiv, hne]
    · cases witnessSatisfied n d s a <;> simp [hdvd, hdiv, ih hrest]

/-- The decomposition `n - 1 = d * 2^s` with `d` odd is unique (R101). -/
theorem odd_mul_two_pow_unique {d e s t : Nat} (hd : d % 2 = 1) (he : e % 2 = 1) (h : d * 2 ^ s = e * 2 ^ t) :
    d = e ∧ s = t := by
  have hcoprime {x k : Nat} (hx : x % 2 = 1) : (2 ^ k).Coprime x :=
    (Nat.coprime_two_left.mpr (Nat.odd_iff.mpr hx)).pow_left k
  have hst : 2 ^ s = 2 ^ t := Nat.dvd_antisymm
    ((hcoprime he).dvd_of_dvd_mul_left (h ▸ Dvd.intro_left d rfl))
    ((hcoprime hd).dvd_of_dvd_mul_left (h ▸ Dvd.intro_left e rfl))
  exact ⟨Nat.eq_of_mul_eq_mul_right (Nat.two_pow_pos t) (hst ▸ h), Nat.pow_right_injective le_rfl hst⟩

/-- For an odd `n` the exponent `s` is at least 1. -/
theorem one_le_exponent_of_odd {n d s : Nat} (hn : 2 ≤ n) (hodd : ¬ 2 ∣ n) (hd : d % 2 = 1) (h : n - 1 = d * 2 ^ s) :
    1 ≤ s := by
  by_contra hs
  obtain rfl : s = 0 := by omega
  omega

/-- The model's `s` and `d` are that decomposition. -/
theorem pred_decomposition {n : Word} (hn : 2 ≤ n.toNat) :
    ((n - 1#64) >>> ctz64 (n - 1#64)).toNat % 2 = 1 ∧
    n.toNat - 1 = ((n - 1#64) >>> ctz64 (n - 1#64)).toNat * 2 ^ ctz64 (n - 1#64) := by
  have hpred : (n - 1#64).toNat = n.toNat - 1 :=
    BitVec.toNat_sub_of_le (BitVec.le_def.mpr (by simp only [BitVec.toNat_ofNat]; omega))
  have hne : n - 1#64 ≠ 0#64 := (ne_zero_iff_one_le _).mpr (by omega)
  obtain ⟨-, hdvd, hodd⟩ := ctz64_bits hne
  rw [ushiftRight_toNat]
  exact ⟨hodd, by rw [Nat.div_mul_cancel hdvd, hpred]⟩

/-- The model's list of witnesses holds the numbers of R4. -/
theorem witnesses_toNat : Config.witnesses.map BitVec.toNat = witnessSet := by decide

/-- A word is a witness exactly when its number is in the witness set. -/
theorem mem_witnesses_iff (n : Word) : n ∈ Config.witnesses ↔ n.toNat ∈ witnessSet := by
  rw [← witnesses_toNat, List.mem_map_of_injective fun _ _ => BitVec.eq_of_toNat_eq]

/-- A property of all witnesses as words is one of all numbers of the witness set. -/
theorem forall_witness_iff (p : Nat → Prop) : (∀ a ∈ Config.witnesses, p a.toNat) ↔ ∀ a ∈ witnessSet, p a := by
  rw [← witnesses_toNat, List.forall_mem_map]

/-- Each of the twelve witnesses is reported prime (R102). -/
theorem isprime_of_mem_witnesses : ∀ n ∈ Config.witnesses, isprime n = true :=
  List.all_eq_true.mp (by decide +kernel)

/-- ISPRIME's verdict on `n >= 2` is that of the integer test. An even `n` is decided by witness 2; for an odd one `s` is
at least 1 and the model's decomposition is the only one. -/
theorem isprime_iff_millerRabinPrime {n : Word} (hn : 2 ≤ n.toNat) :
    isprime n = true ↔ millerRabinPrime n.toNat := by
  by_cases hmem : n ∈ Config.witnesses
  · have hset := (mem_witnesses_iff n).mp hmem
    exact iff_of_true (isprime_of_mem_witnesses n hmem) fun _ _ _ _ => .inl hset
  obtain ⟨hodd, hsplit⟩ := pred_decomposition hn
  have hset : n.toNat ∉ witnessSet := fun h => hmem ((mem_witnesses_iff n).mpr h)
  have hunique : millerRabinPrime n.toNat ↔ ∀ a ∈ witnessSet, ¬ a ∣ n.toNat ∧
      strongProbablePrime n.toNat ((n - 1#64) >>> ctz64 (n - 1#64)).toNat (ctz64 (n - 1#64)) a := by
    refine ⟨fun h => (h _ _ hodd hsplit).resolve_left hset, fun h d s hd hds => .inr ?_⟩
    obtain ⟨rfl, rfl⟩ := odd_mul_two_pow_unique hd hodd (hds.symm.trans hsplit)
    exact h
  rw [hunique, isprime, witnessLoop_iff hmem, ← forall_witness_iff]
  by_cases heven : 2 ∣ n.toNat
  · have htwo : 2#64 ∈ Config.witnesses := by decide
    exact iff_of_false (fun h => (h _ htwo).1 heven) fun h => (h _ htwo).1 heven
  · have hs := one_le_exponent_of_odd hn heven hodd hsplit
    have hd : (n - 1#64) >>> ctz64 (n - 1#64) ≠ 0#64 := by
      intro h0
      rw [h0] at hodd
      exact absurd hodd (by decide)
    exact forall₂_congr fun a _ => and_congr_right fun _ => witnessSatisfied_iff hn hd hs a

end Sys2Proof.Primality
end

section
/-! FACTOR's list of pairs is the prime factorization of `LA` (43_factor.md R120 to R131): every stage removes from the
remaining value the primes below its divisor and records them, so that a trial division that succeeds is by a prime. -/

namespace Sys2Proof.Factorizer

open Sys2Proof.Machine Sys2Proof.Claims Sys2Proof.Modular

/-! ### The work between two divisors -/

/-- The primes of `n` below `p` are removed from `rem` and recorded in `out`, rising and with their exponents; the others
are in `rem` with theirs. -/
structure Removed (n p : Nat) (work : FactorWork) : Prop where
  rem_pos : 0 < work.rem
  rem_dvd : work.rem ∣ n
  removed : ∀ q, q.Prime → q < p → ¬ q ∣ work.rem
  kept : ∀ q, q.Prime → p ≤ q → work.rem.factorization q = n.factorization q
  mem_primes : ∀ q, q ∈ work.out.map Prod.fst ↔ q.Prime ∧ q ∣ n ∧ q < p
  rising : (work.out.map Prod.fst).Pairwise (· < ·)
  exponent : ∀ pe ∈ work.out, pe.2 = n.factorization pe.1

/-- Before the first stage nothing is removed. -/
theorem removed_start {n : Nat} (hn : 0 < n) : Removed n 2 ⟨n, []⟩ where
  rem_pos := hn
  rem_dvd := dvd_rfl
  removed q hq hlt := absurd hq.two_le (not_le.mpr hlt)
  kept _ _ _ := rfl
  mem_primes q := by simpa using fun hq _ => Nat.Prime.one_lt hq
  rising := .nil
  exponent := by simp

/-- Recording a power adds its prime exactly when the exponent is not 0. -/
theorem mem_primes_pushPower {p e q : Nat} {out : List (Nat × Nat)} :
    q ∈ (pushPower p e out).map Prod.fst ↔ q ∈ out.map Prod.fst ∨ (q = p ∧ 0 < e) := by
  unfold pushPower
  split
  · next he => simp [he]
  · next he => simp [he]

/-- The pairs after recording a power are the old ones and that one. -/
theorem mem_pushPower {p e : Nat} {out : List (Nat × Nat)} {pe : Nat × Nat} (h : pe ∈ pushPower p e out) :
    pe ∈ out ∨ pe = (p, e) := by
  unfold pushPower at h
  split at h
  · simpa using h
  · exact .inl h

/-- Recording a power of a greater prime keeps the primes rising. -/
theorem rising_pushPower {p e : Nat} {out : List (Nat × Nat)} (h : (out.map Prod.fst).Pairwise (· < ·))
    (hlt : ∀ q ∈ out.map Prod.fst, q < p) : ((pushPower p e out).map Prod.fst).Pairwise (· < ·) := by
  unfold pushPower
  split
  · rw [List.map_append, List.pairwise_append]
    exact ⟨h, List.pairwise_singleton _ _, by simpa using hlt⟩
  · exact h

section
variable {n p : Nat} {work : FactorWork}

/-- A prime divides the remaining value exactly when it divides `n` and is not removed yet. -/
theorem Removed.prime_dvd_rem_iff (h : Removed n p work) (hn : 0 < n) {q : Nat} (hq : q.Prime) :
    q ∣ work.rem ↔ q ∣ n ∧ p ≤ q := by
  refine ⟨fun hd => ⟨hd.trans h.rem_dvd, not_lt.mp fun hlt => h.removed q hq hlt hd⟩, fun ⟨hd, hle⟩ => ?_⟩
  rwa [hq.dvd_iff_one_le_factorization h.rem_pos.ne', h.kept q hq hle, ← hq.dvd_iff_one_le_factorization hn.ne']

/-- A trial division that succeeds is by a prime (R126): a smaller prime of the divisor would be removed already. -/
theorem Removed.prime_of_dvd_rem (h : Removed n p work) (hp : 2 ≤ p) (hdvd : p ∣ work.rem) : p.Prime := by
  have hprime : p.minFac.Prime := Nat.minFac_prime (by omega)
  have hle : p ≤ p.minFac := not_lt.mp fun hlt => h.removed _ hprime hlt ((Nat.minFac_dvd p).trans hdvd)
  exact le_antisymm (Nat.minFac_le (by omega)) hle ▸ hprime

/-- Divisors between which no prime divides the remaining value need not be tried. -/
theorem Removed.skip (h : Removed n p work) (hn : 0 < n) {p' : Nat} (hle : p ≤ p')
    (hnone : ∀ q, q.Prime → p ≤ q → q < p' → ¬ q ∣ work.rem) : Removed n p' work where
  rem_pos := h.rem_pos
  rem_dvd := h.rem_dvd
  removed q hq hlt := (lt_or_ge q p).elim (h.removed q hq) fun hge => hnone q hq hge hlt
  kept q hq hge := h.kept q hq (hle.trans hge)
  mem_primes q := by
    rw [h.mem_primes q]
    refine and_congr_right fun hq => and_congr_right fun hd => ⟨fun hlt => hlt.trans_le hle, fun hlt => ?_⟩
    by_contra hge
    exact hnone q hq (not_lt.mp hge) hlt ((h.prime_dvd_rem_iff hn hq).mpr ⟨hd, not_lt.mp hge⟩)
  rising := h.rising
  exponent := h.exponent

/-- Dividing out the whole power of a prime and recording it moves on past that prime (R122). -/
theorem Removed.push (h : Removed n p work) (hn : 0 < n) (hp : p.Prime) {r e : Nat} (hrem : work.rem = r * p ^ e)
    (hnot : ¬ p ∣ r) : Removed n (p + 1) ⟨r, pushPower p e work.out⟩ := by
  have hr : r ≠ 0 := by rintro rfl; exact hnot (dvd_zero p)
  have hr_dvd : r ∣ work.rem := Dvd.intro _ hrem.symm
  have hfact (q : Nat) : work.rem.factorization q = r.factorization q + if p = q then e else 0 := by
    rw [hrem, Nat.factorization_mul hr (pow_ne_zero e hp.ne_zero), hp.factorization_pow, Finsupp.add_apply,
      Finsupp.single_apply]
  have he : n.factorization p = e := by
    rw [← h.kept p hp le_rfl, hfact, if_pos rfl, Nat.factorization_eq_zero_of_not_dvd hnot, zero_add]
  have hdvd : p ∣ n ↔ 0 < e := by rw [hp.dvd_iff_one_le_factorization hn.ne', he, Nat.succ_le_iff]
  refine ⟨Nat.pos_of_ne_zero hr, hr_dvd.trans h.rem_dvd, fun q hq hlt hd => ?_, fun q hq hge => ?_, fun q => ?_,
    rising_pushPower h.rising fun q hq => ((h.mem_primes q).mp hq).2.2, fun pe hpe => ?_⟩
  · rcases Nat.lt_succ_iff_lt_or_eq.mp hlt with hlt | rfl
    · exact h.removed q hq hlt (hd.trans hr_dvd)
    · exact hnot hd
  · rw [← h.kept q hq (by omega), hfact, if_neg (by omega), add_zero]
  · rw [mem_primes_pushPower, h.mem_primes, Nat.lt_succ_iff_lt_or_eq, ← hdvd]
    constructor
    · rintro (⟨hq, hd, hlt⟩ | ⟨rfl, hd⟩)
      · exact ⟨hq, hd, .inl hlt⟩
      · exact ⟨hp, hd, .inr rfl⟩
    · rintro ⟨hq, hd, hlt | rfl⟩
      · exact .inl ⟨hq, hd, hlt⟩
      · exact .inr ⟨rfl, hd⟩
  · rcases mem_pushPower hpe with hold | rfl
    · exact h.exponent pe hold
    · exact he.symm

/-! ### The stages -/

/-- The stage of one prime (R125) moves on past it. -/
theorem Removed.after_removeFactor (h : Removed n p work) (hn : 0 < n) (hlt : n < 2 ^ 64) (hp : p.Prime) :
    Removed n (p + 1) (removeFactor p work) := by
  obtain ⟨e, he, hrem, -, hnot⟩ := dividePower_spec (cnt := 0) hp.two_le h.rem_pos
    ((Nat.le_of_dvd hn h.rem_dvd).trans_lt hlt)
  rw [Machine.removeFactor, he, zero_add]
  exact h.push hn hp hrem hnot

/-- The remaining value does not grow by a stage. -/
theorem removeFactor_rem_le (hp : 2 ≤ p) (hpos : 0 < work.rem) (hlt : work.rem < 2 ^ 64) :
    (removeFactor p work).rem ≤ work.rem := by
  obtain ⟨e, -, hrem, -, -⟩ := dividePower_spec (cnt := 0) hp hpos hlt
  exact Nat.le_of_dvd hpos (Dvd.intro _ hrem.symm)

end

/-- The stage of the prime 2, by the trailing zeros (R123), moves on past 2. -/
theorem removed_removeTwos {n : Word} (hn : n ≠ 0#64) : Removed n.toNat 3 (removeTwos n) := by
  have hpos := (ne_zero_iff_one_le n).mp hn
  obtain ⟨-, hdvd, hodd⟩ := ctz64_bits hn
  rw [removeTwos, ushiftRight_toNat]
  exact (removed_start hpos).push hpos Nat.prime_two (Nat.div_mul_cancel hdvd).symm (by omega)

/-- No prime is divisible by 4 or by 6, so after 2, 3 and 5 the walk starts at 7 (R125, R126). -/
theorem removed_before_walk {n : Word} (hn : n ≠ 0#64) :
    Removed n.toNat 7 (removeFactor 5 (removeFactor 3 (removeTwos n))) := by
  have hpos := (ne_zero_iff_one_le n).mp hn
  have hthree := (removed_removeTwos hn).after_removeFactor hpos n.isLt Nat.prime_three
  have hfive := hthree.skip hpos (p' := 5) (by omega) fun q hq hge hlt =>
    absurd hq (by obtain rfl : q = 4 := by omega
                  decide)
  exact (hfive.after_removeFactor hpos n.isLt Nat.prime_five).skip hpos (by omega) fun q hq hge hlt =>
    absurd hq (by obtain rfl : q = 6 := by omega
                  decide)

/-! ### The wheel walk -/

/-- The residue modulo 30 of the divisor at each wheel index (R126, R132). -/
def wheelResidue : Fin 8 → Nat := ![7, 11, 13, 17, 19, 23, 29, 1]

/-- The wheel's increment leads from each residue to the next, over none that is coprime to 30 (R132). -/
theorem wheel_turns : ∀ w : Fin 8, 2 ≤ Config.wheel[w] ∧
    (wheelResidue w + Config.wheel[w]) % 30 = wheelResidue (w + 1) ∧
    ∀ k < Config.wheel[w], 0 < k → ¬ (wheelResidue w + k).Coprime 30 := by decide

/-- Between two candidates of the wheel there is no prime. -/
theorem not_prime_between_candidates {div q : Nat} {w : Fin 8} (hw : div % 30 = wheelResidue w) (hdiv : 7 ≤ div)
    (hlo : div < q) (hhi : q < div + Config.wheel[w]) : ¬ q.Prime := by
  intro hq
  obtain ⟨-, -, hgap⟩ := wheel_turns w
  have hcoprime : q.Coprime (2 * 3 * 5) :=
    (((Nat.coprime_primes hq Nat.prime_two).mpr (by omega)).mul_right
      ((Nat.coprime_primes hq Nat.prime_three).mpr (by omega))).mul_right
      ((Nat.coprime_primes hq Nat.prime_five).mpr (by omega))
  have hmod : wheelResidue w + (q - div) ≡ q [MOD 30] := by
    rw [← hw, Nat.ModEq, Nat.mod_add_mod, Nat.add_sub_cancel' hlo.le]
  exact hgap (q - div) (by omega) (by omega) (hmod.gcd_eq.trans hcoprime)

/-- The walk ends with all primes removed up to one whose square is above the remaining value (R126 to R128): the bound is
the exact root throughout, and the fuel covers the candidates up to it. -/
theorem removed_wheelWalk {n : Nat} (hn : 0 < n) (hlt : n < 2 ^ 64) {fuel div : Nat} {w : Fin 8} {work : FactorWork}
    (h : Removed n div work) (hw : div % 30 = wheelResidue w) (hdiv : 7 ≤ div)
    (hfuel : isqrt64 work.rem < div + fuel) :
    ∃ p, Removed n p (wheelWalk fuel div w (isqrt64 work.rem) work) ∧
      isqrt64 (wheelWalk fuel div w (isqrt64 work.rem) work).rem < p := by
  induction fuel generalizing div w work with
  | zero => exact ⟨div, h, hfuel⟩
  | succ k ih =>
    obtain ⟨hinc, hturn, -⟩ := wheel_turns w
    have hw' : (div + Config.wheel[w]) % 30 = wheelResidue (w + 1) := by rw [← hturn, ← hw, Nat.mod_add_mod]
    have hgap {q : Nat} (hq : q.Prime) (hge : div + 1 ≤ q) (hhi : q < div + Config.wheel[w]) : False :=
      not_prime_between_candidates hw hdiv hge hhi hq
    have hrem : work.rem < 2 ^ 64 := (Nat.le_of_dvd hn h.rem_dvd).trans_lt hlt
    rw [wheelWalk]
    by_cases hbound : div ≤ isqrt64 work.rem
    · rw [if_pos hbound]
      by_cases hdvd : work.rem % div = 0
      · rw [if_pos hdvd]
        have hprime := h.prime_of_dvd_rem (by omega) (Nat.dvd_of_mod_eq_zero hdvd)
        have hnext := (h.after_removeFactor hn hlt hprime).skip hn
          (p' := div + Config.wheel[w]) (by omega) fun q hq hge hhi _ => hgap hq hge hhi
        have hle := removeFactor_rem_le hprime.two_le h.rem_pos hrem
        have hroot : isqrt64 (removeFactor div work).rem ≤ isqrt64 work.rem := by
          rw [Scope.isqrt64_eq_sqrt hrem, Scope.isqrt64_eq_sqrt (hle.trans_lt hrem)]
          exact Nat.sqrt_le_sqrt hle
        exact ih hnext hw' (by omega) (by omega)
      · rw [if_neg hdvd]
        have hnext := h.skip hn (p' := div + Config.wheel[w]) (by omega) fun q hq hge hhi hd => by
          rcases Nat.eq_or_lt_of_le hge with rfl | hgt
          · exact hdvd (Nat.mod_eq_zero_of_dvd hd)
          · exact hgap hq hgt hhi
        exact ih hnext hw' (by omega) (by omega)
    · rw [if_neg hbound]
      exact ⟨div, h, not_le.mp hbound⟩

/-! ### The whole list -/

/-- What remains after the walk is 1 or a prime (R128). -/
theorem Removed.rem_eq_one_or_prime {n p : Nat} {work : FactorWork} (h : Removed n p work) (hlt : work.rem < 2 ^ 64)
    (hroot : isqrt64 work.rem < p) : work.rem = 1 ∨ work.rem.Prime := by
  by_contra! hne
  obtain ⟨hone, hcomp⟩ := hne
  have hmin : work.rem.minFac.Prime := Nat.minFac_prime hone
  have hsq : work.rem.minFac ^ 2 ≤ work.rem := Nat.minFac_sq_le_self h.rem_pos hcomp
  have hle : work.rem.minFac ≤ isqrt64 work.rem := by rwa [Scope.isqrt64_eq_sqrt hlt, Nat.le_sqrt']
  exact h.removed _ hmin (hle.trans_lt hroot) (Nat.minFac_dvd _)

/-- Recording what remains, if it is above 1, leaves nothing to remove (R128). -/
theorem Removed.push_last {n p : Nat} {work : FactorWork} (h : Removed n p work) (hn : 0 < n)
    (hrem : work.rem = 1 ∨ work.rem.Prime) :
    ∃ p', Removed n p' ⟨1, pushPower work.rem (if work.rem > 1 then 1 else 0) work.out⟩ := by
  obtain ⟨r, out⟩ := work
  rcases hrem with hone | hprime
  · obtain rfl : r = 1 := hone
    exact ⟨p, h⟩
  · replace hprime : r.Prime := hprime
    have hle : p ≤ r := not_lt.mp fun hlt => h.removed r hprime hlt dvd_rfl
    have hlast : Removed n r ⟨r, out⟩ := h.skip hn hle fun q hq _ hlt hd =>
      hlt.ne ((Nat.prime_dvd_prime_iff_eq hq hprime).mp hd)
    have hpush := hlast.push hn hprime (r := 1) (e := 1) (by simp) hprime.not_dvd_one
    exact ⟨r + 1, by simpa [hprime.one_lt] using hpush⟩

/-- The list that FACTOR returns for a non-zero `n` leaves nothing to remove (R129). -/
theorem factor_removed {n : Word} (hn : n ≠ 0#64) : ∃ p, Removed n.toNat p ⟨1, factor n⟩ := by
  have hpos := (ne_zero_iff_one_le n).mp hn
  by_cases hone : n ≤ 1#64
  · obtain rfl : n = 1#64 := BitVec.eq_of_toNat_eq (le_antisymm (BitVec.le_def.mp hone) hpos)
    exact ⟨2, removed_start Nat.one_pos⟩
  · have hstart := removed_before_walk hn
    obtain ⟨p, hwalk, hroot⟩ := removed_wheelWalk hpos n.isLt hstart (w := 0) rfl le_rfl
      (Nat.lt_add_of_pos_left (by decide))
    have hlt := (Nat.le_of_dvd hpos hwalk.rem_dvd).trans_lt n.isLt
    rw [factor, if_neg hone]
    exact hwalk.push_last hpos (hwalk.rem_eq_one_or_prime hlt hroot)

/-- The list of distinct primes holds the prime divisors, and nothing for 0. -/
theorem mem_primesOf {n q : Nat} : q ∈ primesOf n ↔ q.Prime ∧ q ∣ n ∧ n ≠ 0 := by
  rw [primesOf, Finset.mem_sort, Nat.mem_primeFactors]

/-- Once nothing is left to remove, the recorded primes are all the primes of `n`. -/
theorem Removed.primes_eq {n p : Nat} {out : List (Nat × Nat)} (h : Removed n p ⟨1, out⟩) (hn : 0 < n) :
    out.map Prod.fst = primesOf n := by
  refine h.rising.sortedLT.eq_of_mem_iff n.primeFactors.sortedLT_sort fun q => ?_
  rw [h.mem_primes, mem_primesOf]
  constructor
  · rintro ⟨hq, hd, -⟩
    exact ⟨hq, hd, hn.ne'⟩
  · rintro ⟨hq, hd, -⟩
    exact ⟨hq, hd, not_le.mp fun hge => hq.not_dvd_one ((h.prime_dvd_rem_iff hn hq).mpr ⟨hd, hge⟩)⟩

/-- The primes of FACTOR's list are the distinct primes of `n`, rising; for 0 and 1 there are none (R121, R129). -/
theorem factor_primes (n : Word) : (factor n).map Prod.fst = primesOf n.toNat := by
  by_cases hn : n = 0#64
  · simp [hn, factor, primesOf]
  · obtain ⟨p, h⟩ := factor_removed hn
    exact h.primes_eq ((ne_zero_iff_one_le n).mp hn)

/-- The exponents of FACTOR's list are those of its primes in `n` (R129). -/
theorem factor_exponents (n : Word) : (factor n).map Prod.snd = (primesOf n.toNat).map n.toNat.factorization := by
  rw [← factor_primes, List.map_map]
  refine List.map_congr_left fun pe hpe => ?_
  by_cases hn : n = 0#64
  · simp [hn, factor] at hpe
  · obtain ⟨p, h⟩ := factor_removed hn
    exact h.exponent pe hpe

/-! ### The factor file -/

/-- The primes below 53, the sixteenth prime. -/
def firstPrimes : Finset Nat := {p ∈ Finset.range 53 | p.Prime}

theorem mem_firstPrimes {p : Nat} : p ∈ firstPrimes ↔ p < 53 ∧ p.Prime := by simp [firstPrimes]

theorem card_firstPrimes : firstPrimes.card = 15 := by decide

/-- The first sixteen primes multiply to more than any word. -/
theorem two_pow_lt_prod_firstPrimes_mul : 2 ^ 64 < (∏ p ∈ firstPrimes, p) * 53 := by decide

/-- Sixteen different primes multiply to at least the first sixteen: those of them below 53 stand in both products, and the
others are at least 53. -/
theorem primes_mul_le_prod {s : Finset Nat} (hprime : ∀ p ∈ s, p.Prime) (hcard : 15 < s.card) :
    (∏ p ∈ firstPrimes, p) * 53 ≤ ∏ p ∈ s, p := by
  have hcards : (firstPrimes \ s).card + 1 ≤ (s \ firstPrimes).card := by
    rw [Nat.succ_le_iff, Finset.card_sdiff_lt_card_sdiff_iff, card_firstPrimes]
    exact hcard
  have hlow : ∏ p ∈ firstPrimes \ s, p ≤ 53 ^ (firstPrimes \ s).card := Finset.prod_le_pow_card _ _ _ fun p hp =>
    (mem_firstPrimes.mp (Finset.mem_sdiff.mp hp).1).1.le
  have hhigh : 53 ^ (s \ firstPrimes).card ≤ ∏ p ∈ s \ firstPrimes, p := Finset.pow_card_le_prod _ _ _ fun p hp => by
    obtain ⟨hs, hlarge⟩ := Finset.mem_sdiff.mp hp
    exact not_lt.mp fun hlt => hlarge (mem_firstPrimes.mpr ⟨hlt, hprime p hs⟩)
  calc (∏ p ∈ firstPrimes, p) * 53
      = (∏ p ∈ firstPrimes ∩ s, p) * ((∏ p ∈ firstPrimes \ s, p) * 53) := by
        rw [← Finset.prod_inter_mul_prod_sdiff firstPrimes s, mul_assoc]
    _ ≤ (∏ p ∈ s ∩ firstPrimes, p) * ∏ p ∈ s \ firstPrimes, p := by
        rw [Finset.inter_comm]
        refine Nat.mul_le_mul_left _ ?_
        calc (∏ p ∈ firstPrimes \ s, p) * 53 ≤ 53 ^ ((firstPrimes \ s).card + 1) := by
              rw [pow_succ]; exact Nat.mul_le_mul_right 53 hlow
          _ ≤ 53 ^ (s \ firstPrimes).card := Nat.pow_le_pow_right (by decide) hcards
          _ ≤ ∏ p ∈ s \ firstPrimes, p := hhigh
    _ = ∏ p ∈ s, p := Finset.prod_inter_mul_prod_sdiff s firstPrimes _

/-- A word has at most fifteen distinct primes (R131). -/
theorem length_primesOf_le (n : Word) : (primesOf n.toNat).length ≤ 15 := by
  rw [primesOf, Finset.length_sort]
  by_contra! hcard
  have hpos : n.toNat ≠ 0 := by intro h; simp [h] at hcard
  have hle : ∏ p ∈ n.toNat.primeFactors, p ≤ n.toNat :=
    Nat.le_of_dvd (Nat.pos_of_ne_zero hpos) (Nat.prod_primeFactors_dvd _)
  have hprod := primes_mul_le_prod (fun p => Nat.prime_of_mem_primeFactors) hcard
  exact absurd n.isLt (not_lt.mpr ((two_pow_lt_prod_firstPrimes_mul.le.trans hprod).trans hle))

/-- The list read at an index inside it gives one of its primes. -/
theorem primesOf_getD_mem {n k : Nat} (hk : k < (primesOf n).length) : (primesOf n).getD k 0 ∈ primesOf n := by
  rw [List.getD_eq_getElem _ _ hk]
  exact List.getElem_mem hk

/-- The list read at an index beyond its end gives 0. -/
theorem primesOf_getD_of_le {n k : Nat} (hk : (primesOf n).length ≤ k) : (primesOf n).getD k 0 = 0 :=
  List.getD_eq_default _ _ hk

/-- The list rises strictly. -/
theorem primesOf_getD_lt_getD {n j k : Nat} (hjk : j < k) (hk : k < (primesOf n).length) :
    (primesOf n).getD j 0 < (primesOf n).getD k 0 := by
  rw [List.getD_eq_getElem _ _ (hjk.trans hk), List.getD_eq_getElem _ _ hk]
  exact n.primeFactors.sortedLT_sort.getElem_lt_getElem_of_lt hjk

/-- Every entry, and the 0 beyond the end, fits in a word. -/
theorem primesOf_getD_lt_two_pow (n : Word) (k : Nat) : (primesOf n.toNat).getD k 0 < 2 ^ 64 := by
  rcases lt_or_ge k (primesOf n.toNat).length with hk | hk
  · obtain ⟨-, hdvd, hn⟩ := mem_primesOf.mp (primesOf_getD_mem hk)
    exact (Nat.le_of_dvd (Nat.pos_of_ne_zero hn) hdvd).trans_lt n.isLt
  · rw [primesOf_getD_of_le hk]
    decide

/-- Every exponent fits in a word. -/
theorem factorization_lt_two_pow (n : Word) (q : Nat) : n.toNat.factorization q < 2 ^ 64 := by
  by_cases hn : n.toNat = 0
  · simp [hn]
  · exact (Nat.factorization_lt q hn).trans n.isLt

/-- After FACTOR's completion `FCNT` holds the number of distinct primes of `LA` (R120). -/
theorem factorResult_fcnt (b : Block) : (factorResult b).fcnt.toNat = (primesOf b.la.toNat).length := by
  have hlen := length_primesOf_le b.la
  rw [factorResult, setFactors_fcnt, ← List.length_map Prod.fst, factor_primes, BitVec.toNat_ofNat,
    Nat.mod_eq_of_lt (by omega)]

/-- After FACTOR's completion `FP` holds the distinct primes of `LA`, rising, and then zeros (R120). -/
theorem factorResult_fp (b : Block) (k : Fin 15) :
    (factorResult b).fp[k].toNat = (primesOf b.la.toNat).getD k 0 := by
  rw [factorResult, setFactors_fp, factor_primes, Fin.getElem_fin, Vector.getElem_ofFn, factorSlot,
    ← List.getD_eq_getElem?_getD, BitVec.toNat_ofNat, Nat.mod_eq_of_lt (primesOf_getD_lt_two_pow _ _)]

/-- After FACTOR's completion `FE` holds their exponents in `LA`, and then zeros (R120). -/
theorem factorResult_fe (b : Block) (k : Fin 15) :
    (factorResult b).fe[k].toNat = b.la.toNat.factorization ((primesOf b.la.toNat).getD k 0) := by
  rw [factorResult, setFactors_fe, factor_exponents, Fin.getElem_fin, Vector.getElem_ofFn, factorSlot,
    List.getElem?_map, ← Nat.factorization_zero_right b.la.toNat, Option.getD_map, ← List.getD_eq_getElem?_getD,
    Nat.factorization_zero_right, BitVec.toNat_ofNat, Nat.mod_eq_of_lt (factorization_lt_two_pow _ _)]

end Sys2Proof.Factorizer
end

section
/-! The statements of 10_state.md: the bits of STATUS (R15), what a step can change (R11, R14, R16, R17, R23), the
invariants (R30), and what `DONE = 1` tells the host (R17). -/

namespace Sys2Proof.ArchState

open Sys2Proof.Machine Sys2Proof.Claims Sys2Proof.Modular

/-! ### The bits of STATUS -/

/-- A bit of `STATUS` is one of the concatenation, its fields from bit 63 down. -/
theorem statusWord_getLsbD (b : Block) (k : Nat) : (statusWord b).getLsbD k =
    BitVec.getLsbD (w := 56 + 4 + 1 + 1 + 1 + 1) (0#56 ++ b.cause.code ++ 0#1 ++ BitVec.ofBool b.fault ++
      BitVec.ofBool b.done ++ BitVec.ofBool b.busy) k := rfl

/-- The three flags and the zero bit above them. -/
theorem statusWord_flags (b : Block) :
    (statusWord b).getLsbD 0 = b.busy ∧ (statusWord b).getLsbD 1 = b.done ∧ (statusWord b).getLsbD 2 = b.fault ∧
    (statusWord b).getLsbD 3 = false := by
  simp only [statusWord_getLsbD, BitVec.getLsbD_append]
  simp

/-- From bit 4 on `STATUS` is the cause code, with zeros above. -/
theorem statusWord_div_sixteen (b : Block) : (statusWord b).toNat / 16 = b.cause.code.toNat := by
  have hshift : statusWord b >>> 4 = b.cause.code.setWidth 64 := by
    refine BitVec.eq_of_getLsbD_eq fun k hk => ?_
    rw [BitVec.getLsbD_ushiftRight]
    simp only [statusWord_getLsbD, BitVec.getLsbD_append]
    by_cases hlow : k < 4
    · simp [hlow, hk]
    · simp [hlow, BitVec.getLsbD_of_ge _ _ (not_lt.mp hlow)]
  have hdiv := ushiftRight_toNat (statusWord b) 4
  rw [hshift, BitVec.toNat_setWidth_of_le (by decide)] at hdiv
  exact hdiv.symm

/-- Settles O9: the flags bit by bit, the rest by the code of each cause. -/
theorem statusWordLayout : Obligations.StatusWordLayout := by
  intro b
  obtain ⟨hbusy, hdone, hfault, hzero⟩ := statusWord_flags b
  refine ⟨hbusy, hdone, hfault, hzero, ?_⟩
  rw [statusWord_div_sixteen]
  cases b.cause <;> rfl

/-! ### The claims' words for the model's operations -/

theorem opcodeByte_eq_opcodeOf (i : Instr) : opcodeByte i = opcodeOf i := by cases i <;> rfl

theorem accepted_eq_accept (i : Instr) (b : Block) : accepted i b = accept i b := by
  rw [accepted, opcodeByte_eq_opcodeOf]; rfl

/-- The claims' operand check is the model's. -/
theorem operandsOk_iff_operandFault (i : Instr) (b : Block) : operandsOk i b ↔ operandFault i b.opa b.opm = none := by
  cases i with
  | modsq => rw [operandFault_modsq_eq_none, ne_zero_iff_one_le]; exact Iff.rfl
  | modpow => rw [operandFault_modpow_eq_none, ne_zero_iff_one_le]; exact Iff.rfl
  | isprime => rw [operandFault_isprime_eq_none]; exact Iff.rfl
  | factor => simp [operandsOk]

/-- The four opcodes differ. -/
theorem opcodeOf_injective : Function.Injective opcodeOf := fun i j h =>
  Option.some.inj (by rw [← commandOf_opcodeOf, ← commandOf_opcodeOf, h])

/-- Only a command's own word decodes to it (R63). -/
theorem eq_encode_of_decode {w : Word} {i : Instr} (h : decode w = .instr i) : w = encode i := by
  have hsplit : zeroField w ++ opcodeField w = w := by
    rw [zeroField, opcodeField, BitVec.extractLsb'_append_extractLsb'_eq_extractLsb' (by rfl), BitVec.extractLsb'_eq_self]
  unfold decode at h
  split at h
  · cases h
  · next hzero =>
    split at h
    · next j hj =>
      cases h
      rw [← hsplit, not_not.mp hzero, commandOf_eq_some_iff.mp hj]
      rfl
    · cases h

/-! ### What a step changes -/

/-- Everything that a step from `s` can make of the block, with what led to it. -/
inductive StepChange (s : State) : Block → Prop
  | kept : StepChange s s.block
  | reset (rest : List HostOp) (turn : s.turn = .host) (line : s.program = .reset :: rest) : StepChange s Block.reset
  | faultEntry (w : Word) (rest : List HostOp) (c : Cause) (turn : s.turn = .host)
      (line : s.program = .write 0#6 w :: rest) (unfaulted : s.block.fault = false) (cause : c ≠ .none)
      (busy : s.block.busy = true → c = .busyCmd) : StepChange s (raiseFault c s.block)
  | acceptance (i : Instr) (rest : List HostOp) (turn : s.turn = .host)
      (line : s.program = .write 0#6 (encode i) :: rest) (unfaulted : s.block.fault = false)
      (idle : s.block.busy = false) (operands : operandFault i s.block.opa s.block.opm = none) :
      StepChange s (accept i s.block)
  | storeOpa (v : Word) (rest : List HostOp) (turn : s.turn = .host) (line : s.program = .write 2#6 v :: rest)
      (unfaulted : s.block.fault = false) : StepChange s { s.block with opa := v }
  | storeOpb (v : Word) (rest : List HostOp) (turn : s.turn = .host) (line : s.program = .write 3#6 v :: rest)
      (unfaulted : s.block.fault = false) : StepChange s { s.block with opb := v }
  | storeOpm (v : Word) (rest : List HostOp) (turn : s.turn = .host) (line : s.program = .write 4#6 v :: rest)
      (unfaulted : s.block.fault = false) : StepChange s { s.block with opm := v }
  | completion (i : Instr) (turn : s.turn = .engine) (busy : s.block.busy = true) (opc : s.block.opc = opcodeOf i)
      (latches : operandFault i s.block.la s.block.lm = none) : StepChange s (finish (resultOf i s.block))

/-- While a command runs, any command write takes `BUSY_CMD` (R147). -/
theorem commandWord_of_busy {b : Block} (hf : b.fault = false) (hb : b.busy = true) (w : Word) :
    commandWord w b = raiseFault .busyCmd b := by
  unfold commandWord
  split <;> exact commandWrite_of_busy hf hb

/-- A port write that stores into an operand register is to that register's index (R11, R43). -/
theorem portWrite_operand_cases {idx : Index} (h : idx ≠ 0#6) (v : Word) (b : Block) :
    portWrite idx v b = b ∨
    (b.fault = false ∧ ((idx = 2#6 ∧ portWrite idx v b = { b with opa := v }) ∨
      (idx = 3#6 ∧ portWrite idx v b = { b with opb := v }) ∨ (idx = 4#6 ∧ portWrite idx v b = { b with opm := v }))) := by
  have hcmd : idx ≠ regIndex .cmd := h
  rw [portWrite, if_neg hcmd]
  split_ifs with hf hopa hopb hopm
  · exact .inl rfl
  · exact .inr ⟨by simpa using hf, .inl ⟨hopa, rfl⟩⟩
  · exact .inr ⟨by simpa using hf, .inr (.inl ⟨hopb, rfl⟩)⟩
  · exact .inr ⟨by simpa using hf, .inr (.inr ⟨hopm, rfl⟩)⟩
  · exact .inl rfl

/-- A host write makes one of these changes. -/
theorem stepChange_write {s : State} {idx : Index} {v : Word} {rest : List HostOp} (ht : s.turn = .host)
    (hp : s.program = .write idx v :: rest) : StepChange s (portWrite idx v s.block) := by
  by_cases hi : idx = 0#6
  · subst hi
    rw [portWrite_cmd]
    rcases commandWord_cases v s.block with ⟨-, h⟩ | ⟨hf, c, hc, h⟩ | ⟨hf, hb, i, hi, ho, h⟩
    · rw [h]; exact .kept
    · rw [h]
      refine .faultEntry v rest c ht hp hf hc fun hb => ?_
      simpa using congrArg Block.cause (h.symm.trans (commandWord_of_busy hf hb v))
    · rw [h]
      exact .acceptance i rest ht (eq_encode_of_decode hi ▸ hp) hf hb ho
  · rcases portWrite_operand_cases hi v s.block with h | ⟨hf, ⟨rfl, h⟩ | ⟨rfl, h⟩ | ⟨rfl, h⟩⟩
    · rw [h]; exact .kept
    · rw [h]; exact .storeOpa v rest ht hp hf
    · rw [h]; exact .storeOpb v rest ht hp hf
    · rw [h]; exact .storeOpm v rest ht hp hf

/-- Every step that answers a next state makes one of these changes. -/
theorem step_change {s t : State} (h : step s = .next t) : StepChange s t.block := by
  rcases step_block_cases h with ⟨-, -, hb⟩ | ⟨ht, op, rest, hp, hb⟩ | ⟨-, -, hb⟩ | ⟨ht, hbusy, i, ho, hl, hb⟩
  · rw [hb]; exact .kept
  · rw [hb]
    cases op with
    | write idx v => exact stepChange_write ht hp
    | read idx => exact .kept
    | wait => exact .kept
    | readFactors => exact .kept
    | reset => exact .reset rest ht hp
  · rw [hb]; exact .kept
  · rw [hb]; exact .completion i ht hbusy ho hl

/-! ### The frame of a result -/

@[simp] theorem resultOf_opa (i : Instr) (b : Block) : (resultOf i b).opa = b.opa := by cases i <;> rfl
@[simp] theorem resultOf_opb (i : Instr) (b : Block) : (resultOf i b).opb = b.opb := by cases i <;> rfl
@[simp] theorem resultOf_opm (i : Instr) (b : Block) : (resultOf i b).opm = b.opm := by cases i <;> rfl
@[simp] theorem resultOf_opc (i : Instr) (b : Block) : (resultOf i b).opc = b.opc := by cases i <;> rfl
@[simp] theorem resultOf_fault (i : Instr) (b : Block) : (resultOf i b).fault = b.fault := by cases i <;> rfl
@[simp] theorem resultOf_cause (i : Instr) (b : Block) : (resultOf i b).cause = b.cause := by cases i <;> rfl
@[simp] theorem resultOf_la (i : Instr) (b : Block) : (resultOf i b).la = b.la := by cases i <;> rfl
@[simp] theorem resultOf_lb (i : Instr) (b : Block) : (resultOf i b).lb = b.lb := by cases i <;> rfl
@[simp] theorem resultOf_lm (i : Instr) (b : Block) : (resultOf i b).lm = b.lm := by cases i <;> rfl

/-! ### The factor file -/

/-- Item 5 of R30 alone: what the invariants say of the factor file. -/
structure FactorFileOk (b : Block) : Prop where
  pair_valid : ∀ i : Fin 15, i.val < b.fcnt.toNat → 1 ≤ b.fe[i].toNat ∧ b.fp[i].toNat.Prime
  pair_rising : ∀ i j : Fin 15, j.val = i.val + 1 → j.val < b.fcnt.toNat → b.fp[i].toNat < b.fp[j].toNat
  pair_cleared : ∀ i : Fin 15, b.fcnt.toNat ≤ i.val → b.fp[i] = 0#64 ∧ b.fe[i] = 0#64

theorem factorFileOk_of_inv {b : Block} (h : b.Inv) : FactorFileOk b :=
  ⟨h.pair_valid, h.pair_rising, h.pair_cleared⟩

/-- FACTOR's completion leaves a well-formed file, since it holds a prime factorization. -/
theorem factorFileOk_factorResult (b : Block) : FactorFileOk (factorResult b) where
  pair_valid k hk := by
    rw [Factorizer.factorResult_fcnt] at hk
    obtain ⟨hprime, hdvd, hne⟩ := Factorizer.mem_primesOf.mp (Factorizer.primesOf_getD_mem hk)
    rw [Factorizer.factorResult_fp, Factorizer.factorResult_fe]
    exact ⟨(hprime.dvd_iff_one_le_factorization hne).mp hdvd, hprime⟩
  pair_rising j k hjk hk := by
    rw [Factorizer.factorResult_fcnt] at hk
    rw [Factorizer.factorResult_fp, Factorizer.factorResult_fp]
    exact Factorizer.primesOf_getD_lt_getD (by omega) hk
  pair_cleared k hk := by
    rw [Factorizer.factorResult_fcnt] at hk
    have hzero := Factorizer.primesOf_getD_of_le hk
    constructor
    · exact BitVec.eq_of_toNat_eq (by rw [Factorizer.factorResult_fp, hzero]; rfl)
    · exact BitVec.eq_of_toNat_eq (by rw [Factorizer.factorResult_fe, hzero, Nat.factorization_zero_right]; rfl)

/-- Every completion leaves a well-formed file: only FACTOR's writes it. -/
theorem factorFileOk_resultOf {b : Block} (h : FactorFileOk b) (i : Instr) : FactorFileOk (resultOf i b) := by
  cases i with
  | modsq => exact ⟨h.pair_valid, h.pair_rising, h.pair_cleared⟩
  | modpow => exact ⟨h.pair_valid, h.pair_rising, h.pair_cleared⟩
  | isprime => exact ⟨h.pair_valid, h.pair_rising, h.pair_cleared⟩
  | factor => exact factorFileOk_factorResult b

/-! ### The invariants -/

/-- Settles O43: the flags and `OPC` are zero, so is every entry of the factor file, and no pair is valid. -/
theorem resetSatisfiesInvariants : Obligations.ResetSatisfiesInvariants where
  busy_or_done := by decide
  fault_stops := by decide
  cause_iff := by decide
  busy_opc := by decide
  busy_modulus := by decide
  busy_candidate := by decide
  pair_valid k hk := absurd hk (Nat.not_lt_zero _)
  pair_rising j k _ hk := absurd hk (Nat.not_lt_zero _)
  pair_cleared := by decide
  opc_range := .inl rfl

/-- Fault entry keeps the invariants: neither busy nor done, and the cause is recorded with the fault (R146). -/
theorem inv_raiseFault {b : Block} {c : Cause} (h : b.Inv) (hc : c ≠ .none) : (raiseFault c b).Inv where
  busy_or_done := by simp
  fault_stops := by simp
  cause_iff := by simp [hc]
  busy_opc := by simp
  busy_modulus := by simp
  busy_candidate := by simp
  pair_valid := h.pair_valid
  pair_rising := h.pair_rising
  pair_cleared := h.pair_cleared
  opc_range := h.opc_range

/-- The opcodes of the four commands are those of R63. -/
theorem opcodeOf_range (i : Instr) : opcodeOf i = 1#8 ∨ opcodeOf i = 2#8 ∨ opcodeOf i = 3#8 ∨ opcodeOf i = 4#8 := by
  cases i <;> decide

/-- Operands that pass the check of MODSQ or MODPOW have a modulus of at least 1. -/
theorem one_le_modulus {i : Instr} {a m : Word} (h : operandFault i a m = none)
    (hi : opcodeOf i = opcodeOf .modsq ∨ opcodeOf i = opcodeOf .modpow) : 1 ≤ m.toNat := by
  rcases hi with hi | hi
  · obtain rfl := opcodeOf_injective hi
    exact (ne_zero_iff_one_le m).mp (operandFault_modsq_eq_none.mp h)
  · obtain rfl := opcodeOf_injective hi
    exact (ne_zero_iff_one_le m).mp (operandFault_modpow_eq_none.mp h)

/-- Operands that pass the check of ISPRIME have a candidate of at least 2. -/
theorem two_le_candidate {i : Instr} {a m : Word} (h : operandFault i a m = none)
    (hi : opcodeOf i = opcodeOf .isprime) : 2 ≤ a.toNat := by
  obtain rfl := opcodeOf_injective hi
  exact operandFault_isprime_eq_none.mp h

/-- Acceptance keeps the invariants: the operand check puts the latches into the command's domain (R64, R66). -/
theorem inv_accept {b : Block} {i : Instr} (h : b.Inv) (hf : b.fault = false)
    (ho : operandFault i b.opa b.opm = none) : (accept i b).Inv where
  busy_or_done := by simp
  fault_stops := by simp [hf]
  cause_iff := h.cause_iff
  busy_opc _ := opcodeOf_range i
  busy_modulus _ hi := one_le_modulus ho hi
  busy_candidate _ hi := two_le_candidate ho hi
  pair_valid := h.pair_valid
  pair_rising := h.pair_rising
  pair_cleared := h.pair_cleared
  opc_range := .inr (opcodeOf_range i)

/-- Completion keeps the invariants: a busy block is not faulted, and the factor file stays well formed (R67). -/
theorem inv_completion {b : Block} (h : b.Inv) (hb : b.busy = true) (i : Instr) : (finish (resultOf i b)).Inv where
  busy_or_done := by simp
  fault_stops hf := by
    obtain ⟨hidle, -⟩ := h.fault_stops (by simpa using hf)
    exact absurd (hb.symm.trans hidle) (by decide)
  cause_iff := by simpa using h.cause_iff
  busy_opc := by simp
  busy_modulus := by simp
  busy_candidate := by simp
  pair_valid := (factorFileOk_resultOf (factorFileOk_of_inv h) i).pair_valid
  pair_rising := (factorFileOk_resultOf (factorFileOk_of_inv h) i).pair_rising
  pair_cleared := (factorFileOk_resultOf (factorFileOk_of_inv h) i).pair_cleared
  opc_range := by simpa using h.opc_range

/-- The invariants do not speak of the operand registers. -/
theorem inv_operands {b : Block} (h : b.Inv) (a e m : Word) : Block.Inv { b with opa := a, opb := e, opm := m } :=
  ⟨h.busy_or_done, h.fault_stops, h.cause_iff, h.busy_opc, h.busy_modulus, h.busy_candidate, h.pair_valid,
    h.pair_rising, h.pair_cleared, h.opc_range⟩

/-- Each change that a step can make keeps the invariants. -/
theorem StepChange.inv {s : State} {b : Block} (hc : StepChange s b) (h : s.block.Inv) : b.Inv := by
  cases hc with
  | kept => exact h
  | reset => exact resetSatisfiesInvariants
  | faultEntry w rest c ht hp hf hc => exact inv_raiseFault h hc
  | acceptance i rest ht hp hf hb ho => exact inv_accept h hf ho
  | storeOpa v => exact inv_operands h v _ _
  | storeOpb v => exact inv_operands h _ v _
  | storeOpm v => exact inv_operands h _ _ v
  | completion i ht hb => exact inv_completion h hb i

/-- Settles O44, by the changes that a step can make. -/
theorem stepKeepsInvariants : Obligations.StepKeepsInvariants := fun _ _ h hstep => (step_change hstep).inv h

/-! ### What `DONE = 1` tells the host -/

/-- A completion leaves the result of the command that `OPC` names, as a function of the latches (R80, R90, R100, R120). -/
theorem resultIsCurrent_completion {b : Block} {i : Instr} (ho : b.opc = opcodeOf i)
    (hl : operandFault i b.la b.lm = none) : resultIsCurrent (finish (resultOf i b)) := by
  have names (j : Instr) (h : (finish (resultOf i b)).opc = opcodeOf j) : i = j := by
    rw [finish_opc, resultOf_opc, ho] at h
    exact opcodeOf_injective h
  refine fun _ => ⟨fun h => ?_, fun h => ?_, fun h => ?_, fun h => ?_⟩
  · obtain rfl := names .modsq h
    rw [sq]
    exact modsq_toNat (one_le_modulus hl (.inl rfl))
  · obtain rfl := names .modpow h
    exact modpow_toNat (one_le_modulus hl (.inr rfl))
  · obtain rfl := names .isprime h
    have hverdict := Primality.isprime_iff_millerRabinPrime (two_le_candidate hl rfl)
    have hres : (finish (resultOf .isprime b)).res = if isprime b.la then 1#64 else 0#64 := rfl
    rw [finish_la, resultOf_la, ← hverdict, hres]
    cases isprime b.la <;> decide
  · obtain rfl := names .factor h
    exact ⟨Factorizer.factorResult_fcnt b, fun k => ⟨Factorizer.factorResult_fp b k, Factorizer.factorResult_fe b k⟩⟩

/-- Each change that a step can make keeps it: a fault, an acceptance and a reset clear `DONE`. -/
theorem StepChange.resultIsCurrent {s : State} {b : Block} (hc : StepChange s b) (h : resultIsCurrent s.block) :
    resultIsCurrent b := by
  cases hc with
  | kept => exact h
  | reset => exact fun hd => nomatch hd
  | faultEntry => exact fun hd => nomatch hd
  | acceptance => exact fun hd => nomatch hd
  | storeOpa => exact h
  | storeOpb => exact h
  | storeOpm => exact h
  | completion i ht hb ho hl => exact resultIsCurrent_completion ho hl

/-- Settles O45, by the changes that a step can make. -/
theorem stepKeepsResultsCurrent : Obligations.StepKeepsResultsCurrent := fun _ _ h hstep =>
  (step_change hstep).resultIsCurrent h

/-! ### What changes the registers and the flags -/

/-- Settles O37: of the changes that a step can make, only reset and the store of its own index touch an operand
register. -/
theorem operandsChangeOnlyByHostWrite : Obligations.OperandsChangeOnlyByHostWrite := by
  intro s t hstep
  have hc := step_change hstep
  generalize t.block = b at hc ⊢
  cases hc with
  | kept => exact ⟨absurd rfl, absurd rfl, absurd rfl⟩
  | reset rest ht hp => exact ⟨fun _ => ⟨ht, rest, .inl hp⟩, fun _ => ⟨ht, rest, .inl hp⟩, fun _ => ⟨ht, rest, .inl hp⟩⟩
  | faultEntry => exact ⟨absurd rfl, absurd rfl, absurd rfl⟩
  | acceptance => exact ⟨absurd rfl, absurd rfl, absurd rfl⟩
  | storeOpa v rest ht hp hf => exact ⟨fun _ => ⟨ht, rest, .inr ⟨hf, hp⟩⟩, absurd rfl, absurd rfl⟩
  | storeOpb v rest ht hp hf => exact ⟨absurd rfl, fun _ => ⟨ht, rest, .inr ⟨hf, hp⟩⟩, absurd rfl⟩
  | storeOpm v rest ht hp hf => exact ⟨absurd rfl, absurd rfl, fun _ => ⟨ht, rest, .inr ⟨hf, hp⟩⟩⟩
  | completion i =>
    exact ⟨absurd (resultOf_opa i s.block), absurd (resultOf_opb i s.block), absurd (resultOf_opm i s.block)⟩

/-- Settles O39: of the changes that a step can make, only reset and acceptance touch `OPC` or a latch. -/
theorem opcAndLatchesChangeOnlyAtAcceptance : Obligations.OpcAndLatchesChangeOnlyAtAcceptance := by
  intro s t hstep hne
  have hc := step_change hstep
  generalize t.block = b at hc hne ⊢
  cases hc with
  | reset rest ht hp => exact ⟨ht, rest, .inl hp⟩
  | acceptance i rest ht hp hf hb ho =>
    exact ⟨ht, rest, .inr ⟨i, hp, hf, hb, (operandsOk_iff_operandFault i s.block).mpr ho, (accepted_eq_accept i _).symm⟩⟩
  | kept => simp at hne
  | faultEntry => simp at hne
  | storeOpa => simp at hne
  | storeOpb => simp at hne
  | storeOpm => simp at hne
  | completion i => simp at hne

section
variable {s : State} {b : Block}

/-- `BUSY` is set only by acceptance (R16). -/
theorem StepChange.busy_set (hc : StepChange s b) (hs : s.block.busy = false) (hb : b.busy = true) :
    s.turn = .host ∧ ∃ i rest, s.program = .write 0#6 (encode i) :: rest ∧ b = accepted i s.block := by
  cases hc with
  | acceptance i rest ht hp => exact ⟨ht, i, rest, hp, (accepted_eq_accept i _).symm⟩
  | reset => cases hb
  | faultEntry => cases hb
  | completion i => cases hb
  | _ => exact absurd (hs.symm.trans hb) (by decide)

/-- `BUSY` is cleared only by completion, by `BUSY_CMD` or by reset (R16). -/
theorem StepChange.busy_cleared (hc : StepChange s b) (hs : s.block.busy = true) (hb : b.busy = false) :
    (s.turn = .engine ∧ b.done = true) ∨
    (s.turn = .host ∧ ∃ rest, s.program = .reset :: rest ∨
      ∃ w, s.program = .write 0#6 w :: rest ∧ b = faulted .busyCmd s.block) := by
  cases hc with
  | completion i ht => exact .inl ⟨ht, rfl⟩
  | reset rest ht hp => exact .inr ⟨ht, rest, .inl hp⟩
  | faultEntry w rest c ht hp hf hc hbusy =>
    obtain rfl := hbusy hs
    exact .inr ⟨ht, rest, .inr ⟨w, hp, rfl⟩⟩
  | acceptance => cases hb
  | _ => exact absurd (hs.symm.trans hb) (by decide)

/-- `DONE` is set only by completion (R17). -/
theorem StepChange.done_set (hc : StepChange s b) (hs : s.block.done = false) (hb : b.done = true) :
    s.turn = .engine ∧ s.block.busy = true ∧ b.busy = false := by
  cases hc with
  | completion i ht hbusy => exact ⟨ht, hbusy, rfl⟩
  | reset => cases hb
  | faultEntry => cases hb
  | acceptance => cases hb
  | _ => exact absurd (hs.symm.trans hb) (by decide)

/-- `DONE` is cleared only by acceptance, by fault entry or by reset (R17). -/
theorem StepChange.done_cleared (hc : StepChange s b) (hs : s.block.done = true) (hb : b.done = false) :
    s.turn = .host ∧ ∃ rest, s.program = .reset :: rest ∨
      ∃ w, s.program = .write 0#6 w :: rest ∧ (b.busy = true ∨ b.fault = true) := by
  cases hc with
  | acceptance i rest ht hp => exact ⟨ht, rest, .inr ⟨encode i, hp, .inl rfl⟩⟩
  | faultEntry w rest c ht hp => exact ⟨ht, rest, .inr ⟨w, hp, .inr rfl⟩⟩
  | reset rest ht hp => exact ⟨ht, rest, .inl hp⟩
  | completion i => cases hb
  | _ => exact absurd (hs.symm.trans hb) (by decide)
end

/-- Settles O40, flag by flag and direction by direction. -/
theorem busyAndDoneChangeAsStated : Obligations.BusyAndDoneChangeAsStated := fun _ _ hstep =>
  have hc := step_change hstep
  ⟨hc.busy_set, hc.busy_cleared, hc.done_set, hc.done_cleared⟩

end Sys2Proof.ArchState
end

section
/-! The statements of 20_memory.md: what a port read returns (R42, R44), what a port write does (R43), and operand
writes under a running command (R46). -/

namespace Sys2Proof.RegisterPort

open Sys2Proof.Machine Sys2Proof.Claims Sys2Proof.ArchState

/-! ### The port read -/

/-- A port read returns the value of the register that the map has at the index. -/
theorem portRead_of_regAt {idx : Index} {r : Reg} (h : regAt idx = some r) (b : Block) :
    portRead idx b = readReg b r := by
  rw [portRead, h]

/-- A reserved index reads 0 (R45). -/
theorem portRead_of_reserved {idx : Index} (h : regAt idx = none) (b : Block) : portRead idx b = 0#64 := by
  rw [portRead, h]

/-- The map has pair `k` of the factor file at the indices 0x10 + `k` and 0x20 + `k`. -/
theorem regAt_pair : ∀ k : Fin 15,
    regAt (BitVec.ofNat 6 (0x10 + k)) = some (.fp k) ∧ regAt (BitVec.ofNat 6 (0x20 + k)) = some (.fe k) := by
  decide

/-- The map's gaps: between `FCNT` and the primes, between the primes and the exponents, and after the exponents. -/
theorem regAt_of_gap {idx : Index}
    (h : (0x07 ≤ idx.toNat ∧ idx.toNat ≤ 0x0F) ∨ idx.toNat = 0x1F ∨ 0x2F ≤ idx.toNat) : regAt idx = none := by
  have single {n : Nat} (hn : n ≤ 0x06) : idx ≠ BitVec.ofNat 6 n := by
    rintro rfl
    rw [BitVec.toNat_ofNat] at h
    omega
  have primes : ¬ (0x10#6 ≤ idx ∧ idx ≤ 0x1E#6) := by bv_omega
  have exponents : ¬ (0x20#6 ≤ idx ∧ idx ≤ 0x2E#6) := by bv_omega
  simp [regAt, single, primes, exponents]

theorem portRead_fp (k : Fin 15) (b : Block) : portRead (BitVec.ofNat 6 (0x10 + k)) b = b.fp[k] := by
  rw [portRead_of_regAt (regAt_pair k).1]
  simp [readReg]

theorem portRead_fe (k : Fin 15) (b : Block) : portRead (BitVec.ofNat 6 (0x20 + k)) b = b.fe[k] := by
  rw [portRead_of_regAt (regAt_pair k).2]
  simp [readReg]

/-- A step of the host whose next line is a read: the value goes to the host, and the turn passes. -/
theorem step_host_read {s : State} {idx : Index} {rest : List HostOp} (ht : s.turn = .host)
    (hp : s.program = .read idx :: rest) :
    step s = .next (passTurn { s with program := rest, reads := ⟨idx, portRead idx s.block⟩ :: s.reads }) := by
  rw [step_host ht hp]
  rfl

/-- Settles O7: the seven single registers by the map's own rows, the factor file by its two ranges, the gaps by the
map having no register there. -/
theorem portReadFollowsTheMap : Obligations.PortReadFollowsTheMap :=
  ⟨fun b => ⟨rfl, rfl, rfl, rfl, rfl, rfl, rfl, fun k => ⟨portRead_fp k b, portRead_fe k b⟩,
    fun _ hgap => portRead_of_reserved (regAt_of_gap hgap) b⟩, fun _ _ _ => step_host_read⟩

/-! ### The command write -/

/-- A ready block checks and accepts a command that is written to `CMD` in its own word. -/
theorem commandWord_encode {b : Block} (hf : b.fault = false) (hb : b.busy = false) (i : Instr) :
    commandWord (encode i) b = checkAndAccept i b := by
  have hdecode : decode (encode i) = .instr i := by cases i <;> rfl
  rw [commandWord, hdecode]
  exact commandWrite_of_ready hf hb

/-- A ready block takes `ILLEGAL_CMD` for a word that is no command (R65). -/
theorem commandWord_reject {b : Block} (hf : b.fault = false) (hb : b.busy = false) {w : Word} {r : DecodeReject}
    (h : decode w = .reject r) : commandWord w b = raiseFault .illegalCmd b := by
  rw [commandWord, h]
  exact commandWrite_of_ready hf hb

/-- A rejected word fails R64's test of legality: its upper bits are not zero, or its opcode is none of the four. -/
theorem illegal_of_reject {w : Word} {r : DecodeReject} (h : decode w = .reject r) :
    w.toNat / 256 ≠ 0 ∨ w.toNat % 256 ∉ [1, 2, 3, 4] := by
  by_contra hlegal
  obtain ⟨hzero, hop⟩ : w.toNat / 256 = 0 ∧ w.toNat % 256 ∈ [1, 2, 3, 4] := by
    rwa [not_or, not_not, not_not] at hlegal
  have hsmall : w.toNat = 1 ∨ w.toNat = 2 ∨ w.toNat = 3 ∨ w.toNat = 4 := by
    simp only [List.mem_cons, List.not_mem_nil, or_false] at hop
    omega
  have legal (i : Instr) : w.toNat ≠ (encode i).toNat := by
    intro heq
    obtain rfl := BitVec.eq_of_toNat_eq heq
    cases i <;> cases h
  rcases hsmall with h1 | h2 | h3 | h4
  · exact legal .modsq h1
  · exact legal .modpow h2
  · exact legal .isprime h3
  · exact legal .factor h4

/-- The operand check, as R64 tests it on the number of the command's word. -/
theorem operandFault_eq_tests (i : Instr) (a m : Word) : operandFault i a m =
    if (encode i).toNat % 256 ∈ [1, 2] ∧ m.toNat = 0 then some .divZero
    else if (encode i).toNat % 256 = 3 ∧ a.toNat < 2 then some .domain
    else none := by
  have hmodulus : m = 0#64 ↔ m.toNat = 0 := BitVec.toNat_eq
  have hcandidate : a < 2#64 ↔ a.toNat < 2 := Iff.rfl
  cases i with
  | modsq => simp [operandFault, hmodulus, encode, opcodeOf]
  | modpow => simp [operandFault, hmodulus, encode, opcodeOf]
  | isprime => simp [operandFault, hcandidate, encode, opcodeOf]
  | factor => simp [operandFault, encode, opcodeOf]

/-- R64's pseudocode on a command's own word, when the block is ready: the operand check, or acceptance. -/
theorem commandWritten_encode {b : Block} (hf : b.fault = false) (hb : b.busy = false) (i : Instr) :
    commandWritten (encode i) b = checkAndAccept i b := by
  have hlegal : ¬ ((encode i).toNat / 256 ≠ 0 ∨ (encode i).toNat % 256 ∉ [1, 2, 3, 4]) := by cases i <;> decide
  have hopcode : (encode i).setWidth 8 = opcodeOf i := by cases i <;> rfl
  rw [commandWritten, if_neg (by simp [hf]), if_neg (by simp [hb]), if_neg hlegal, hopcode, checkAndAccept,
    operandFault_eq_tests]
  split_ifs <;> rfl

/-- The command write is R64's pseudocode, for every word and every block. -/
theorem commandWord_eq_commandWritten (w : Word) (b : Block) : commandWord w b = commandWritten w b := by
  rcases hf : b.fault with _ | _
  · rcases hb : b.busy with _ | _
    · rcases hd : decode w with i | r
      · obtain rfl := eq_encode_of_decode hd
        rw [commandWord_encode hf hb, commandWritten_encode hf hb]
      · rw [commandWord_reject hf hb hd]
        rw [commandWritten, if_neg (by simp [hf]), if_neg (by simp [hb]), if_pos (illegal_of_reject hd)]
        rfl
    · rw [commandWord_of_busy hf hb]
      rw [commandWritten, if_neg (by simp [hf]), if_pos hb]
      rfl
  · rw [commandWritten, if_pos hf]
    rcases commandWord_cases w b with ⟨-, h⟩ | ⟨hf', -⟩ | ⟨hf', -⟩
    · exact h
    · exact absurd (hf.symm.trans hf') (by decide)
    · exact absurd (hf.symm.trans hf') (by decide)

/-! ### The port write -/

/-- While `FAULT = 1` no write of any index changes anything. -/
theorem portWrite_of_fault {b : Block} (h : b.fault = true) (idx : Index) (v : Word) : portWrite idx v b = b := by
  by_cases hidx : idx = 0#6
  · rw [hidx, portWrite_cmd, commandWord_eq_commandWritten, commandWritten, if_pos h]
  · rcases portWrite_operand_cases hidx v b with hkept | ⟨hf, -⟩
    · exact hkept
    · exact absurd (h.symm.trans hf) (by decide)

section
variable {b : Block} (hf : b.fault = false) (v : Word)
include hf

theorem portWrite_opa : portWrite 2#6 v b = { b with opa := v } := by simp [portWrite, regIndex, hf]
theorem portWrite_opb : portWrite 3#6 v b = { b with opb := v } := by simp [portWrite, regIndex, hf]
theorem portWrite_opm : portWrite 4#6 v b = { b with opm := v } := by simp [portWrite, regIndex, hf]
end

/-- A write to a read-only or reserved index is ignored (R45). -/
theorem portWrite_ignored {idx : Index} (h : idx = 0x01#6 ∨ 0x05 ≤ idx.toNat) (v : Word) (b : Block) :
    portWrite idx v b = b := by
  have hcmd : idx ≠ 0#6 := by bv_omega
  rcases portWrite_operand_cases hcmd v b with hkept | ⟨-, ⟨hidx, -⟩ | ⟨hidx, -⟩ | ⟨hidx, -⟩⟩
  · exact hkept
  · bv_omega
  · bv_omega
  · bv_omega

/-- Settles O8, index by index. -/
theorem portWriteFollowsTheMap : Obligations.PortWriteFollowsTheMap := by
  intro s idx data rest ht hp
  refine ⟨_, step_host_write ht hp, rfl, fun hf => portWrite_of_fault hf idx data, ?_, fun hf => ⟨?_, ?_, ?_, ?_⟩⟩
  · rintro rfl
    exact commandWord_eq_commandWritten data s.block
  · rintro rfl
    exact portWrite_opa hf data
  · rintro rfl
    exact portWrite_opb hf data
  · rintro rfl
    exact portWrite_opm hf data
  · exact fun hidx => portWrite_ignored hidx data s.block

/-! ### Operand writes under a running command -/

/-- The block with other values in its operand registers. -/
def withOperands (a e m : Word) (b : Block) : Block := { b with opa := a, opb := e, opm := m }

/-- Whatever is written to indices other than 0, only the operand registers can differ. -/
theorem exists_withOperands_of_writes {writes : List (Index × Word)} (h : ∀ w ∈ writes, w.1 ≠ 0#6) (b : Block) :
    ∃ a e m, writes.foldl (fun b w => portWrite w.1 w.2 b) b = withOperands a e m b := by
  induction writes generalizing b with
  | nil => exact ⟨b.opa, b.opb, b.opm, rfl⟩
  | cons w writes ih =>
    obtain ⟨hw, hrest⟩ := List.forall_mem_cons.mp h
    obtain ⟨a, e, m, hfold⟩ := ih hrest (portWrite w.1 w.2 b)
    refine ⟨a, e, m, ?_⟩
    rw [List.foldl_cons, hfold]
    rcases portWrite_register_cases hw w.2 b with hb | ⟨-, hb | hb | hb⟩ <;> rw [hb] <;> rfl

/-- A command computes from the latches, so its result does not depend on the operand registers (R23). -/
theorem resultOf_withOperands (i : Instr) (a e m : Word) (b : Block) :
    resultOf i (withOperands a e m b) = withOperands a e m (resultOf i b) := by cases i <;> rfl

/-- With no step enabled for the command on the engine's turn, nothing changes. -/
theorem exec_engine_disabled {i : Instr} {s : State} (ht : s.turn = .engine)
    (h : ¬ (s.block.busy = true ∧ s.block.opc = opcodeOf i)) : exec i s = .next s := by
  rw [exec_eq, commandStep, ht]
  exact if_neg h

/-- The engine's step of a command commutes with any change of the operand registers. -/
theorem exec_withOperands {i : Instr} {s t : State} (ht : s.turn = .engine) (h : exec i s = .next t) (a e m : Word) :
    exec i { s with block := withOperands a e m s.block } = .next { t with block := withOperands a e m t.block } := by
  rcases exec_next_cases h with ⟨hhost, -⟩ | ⟨-, hb, ho, hl, rfl⟩ | ⟨-, hdisabled, rfl⟩
  · exact absurd (ht.symm.trans hhost) (by decide)
  · rw [exec_engine (s := { s with block := withOperands a e m s.block }) ht hb ho hl, resultOf_withOperands]
    rfl
  · exact exec_engine_disabled ht hdisabled

/-- Settles O41: the writes amount to a change of the operand registers, and the completion commutes with it. -/
theorem operandWritesWhileBusyDoNotDisturb : Obligations.OperandWritesWhileBusyDoNotDisturb := by
  intro i s t writes ht _ _ hwrites hexec
  obtain ⟨a, e, m, hfold⟩ := exists_withOperands_of_writes hwrites s.block
  rw [hfold]
  exact ⟨_, exec_withOperands ht hexec a e m, rfl, rfl, rfl, rfl, rfl, rfl⟩

end Sys2Proof.RegisterPort
end

section
/-! The statements of 30_encoding.md: the command word (R60, R63, R65), the command write (R64, R66), the completion
(R67), and the host's two loops (R70). -/

namespace Sys2Proof.Encoding

open Sys2Proof.Machine Sys2Proof.Claims Sys2Proof.ArchState Sys2Proof.RegisterPort

/-! ### The command word -/

@[simp] theorem zeroField_encode (i : Instr) : zeroField (encode i) = 0#56 := by cases i <;> rfl
@[simp] theorem opcodeField_encode (i : Instr) : opcodeField (encode i) = opcodeOf i := by cases i <;> rfl

/-- The number of a command's word is its opcode. -/
theorem encode_toNat (i : Instr) : (encode i).toNat = (opcodeByte i).toNat := by cases i <;> rfl

theorem decode_encode (i : Instr) : decode (encode i) = .instr i := by
  simp [decode, commandOf_opcodeOf]

theorem decode_eq_instr_iff (w : Word) (i : Instr) : decode w = .instr i ↔ w = encode i :=
  ⟨eq_encode_of_decode, fun h => h ▸ decode_encode i⟩

/-- Settles O1: the encoder puts the opcode in the low byte, from which the decoder reads the command back; and a word
that decodes is put together again from its two fields. -/
theorem decodeMatchesWholeWord : Obligations.DecodeMatchesWholeWord :=
  ⟨rfl, rfl, rfl, rfl, decode_eq_instr_iff⟩

theorem decode_of_reservedBits {w : Word} (h : zeroField w ≠ 0#56) : decode w = .reject .reservedBits :=
  if_pos h

theorem decode_of_illegalOpcode {w : Word} (hzero : zeroField w = 0#56) (hop : commandOf (opcodeField w) = none) :
    decode w = .reject .illegalOpcode := by
  simp [decode, hzero, hop]

/-- Settles O2: the legal words are the encodings, the others fail one of the decoder's two tests. -/
theorem writtenOutWordsDecode : Obligations.WrittenOutWordsDecode :=
  ⟨decode_encode .modsq, decode_encode .modpow, decode_encode .isprime, decode_encode .factor,
    decode_of_illegalOpcode (by decide) (by decide), decode_of_illegalOpcode (by decide) (by decide),
    decode_of_reservedBits (by decide), decode_of_reservedBits (by decide)⟩

/-! ### The command write on a ready block -/

/-- No command's own word fails R64's test of legality. -/
theorem encode_legal (i : Instr) :
    ¬ ((encode i).toNat / 256 ≠ 0 ∨ (encode i).toNat % 256 ∉ [1, 2, 3, 4]) := by cases i <;> decide

/-- A word that fails R64's test of legality is no command (R65). -/
theorem reject_of_illegal {w : Word} (h : w.toNat / 256 ≠ 0 ∨ w.toNat % 256 ∉ [1, 2, 3, 4]) :
    ∃ r, decode w = .reject r := by
  cases hd : decode w with
  | instr i => exact absurd (eq_encode_of_decode hd ▸ h) (encode_legal i)
  | reject r => exact ⟨r, rfl⟩

theorem checkAndAccept_of_operandFault {i : Instr} {b : Block} {c : Cause} (h : operandFault i b.opa b.opm = some c) :
    checkAndAccept i b = faulted c b := by
  rw [checkAndAccept, h]; rfl

theorem checkAndAccept_of_operandsOk {i : Instr} {b : Block} (h : operandsOk i b) :
    checkAndAccept i b = accepted i b := by
  rw [checkAndAccept, (operandsOk_iff_operandFault i b).mp h, accepted_eq_accept]

section
variable {b : Block} (hf : b.fault = false) (hb : b.busy = false)
include hf hb

theorem portWrite_cmd_of_illegal {w : Word} (h : w.toNat / 256 ≠ 0 ∨ w.toNat % 256 ∉ [1, 2, 3, 4]) :
    portWrite 0#6 w b = faulted .illegalCmd b := by
  obtain ⟨r, hr⟩ := reject_of_illegal h
  exact commandWord_reject hf hb hr

theorem portWrite_cmd_of_operandFault {i : Instr} {c : Cause} (h : operandFault i b.opa b.opm = some c) :
    portWrite 0#6 (encode i) b = faulted c b :=
  (commandWord_encode hf hb i).trans (checkAndAccept_of_operandFault h)

theorem portWrite_cmd_of_operandsOk {i : Instr} (h : operandsOk i b) :
    portWrite 0#6 (encode i) b = accepted i b :=
  (commandWord_encode hf hb i).trans (checkAndAccept_of_operandsOk h)
end

/-- Settles O10, test by test. -/
theorem commandWriteDecidesInPriorityOrder : Obligations.CommandWriteDecidesInPriorityOrder := by
  intro w b
  refine ⟨fun hf => portWrite_of_fault hf 0#6 w, fun hf hb => commandWord_of_busy hf hb w,
    fun hf hb => ⟨fun hw => ?illegal, fun hw hm => ?divZero, fun hw ha => ?domain, fun i hw hok => ?accepted⟩⟩
  case illegal =>
    refine portWrite_cmd_of_illegal hf hb ?_
    simp only [List.mem_cons, List.not_mem_nil, or_false]
    omega
  case divZero =>
    rcases hw with rfl | rfl
    · exact portWrite_cmd_of_operandFault hf hb (i := .modsq) (if_pos hm)
    · exact portWrite_cmd_of_operandFault hf hb (i := .modpow) (if_pos hm)
  case domain =>
    subst hw
    exact portWrite_cmd_of_operandFault hf hb (i := .isprime) (if_pos ha)
  case accepted =>
    obtain rfl : w = encode i := BitVec.eq_of_toNat_eq (hw.trans (encode_toNat i).symm)
    exact portWrite_cmd_of_operandsOk hf hb hok

/-- Settles O11: the word is no command, and the port write takes `ILLEGAL_CMD`. -/
theorem illegalWordTakesIllegalCmd : Obligations.IllegalWordTakesIllegalCmd := by
  intro s w rest ht hp hf hb hw
  refine ⟨reject_of_illegal hw, ?_⟩
  rw [step_host_write ht hp, portWrite_cmd_of_illegal hf hb hw]

/-- Settles O12: on a ready block the command write is the operand check, which accepts. -/
theorem commandIsAccepted : Obligations.CommandIsAccepted := by
  intro i s ht hf hb hok
  rw [exec_host ht, issue, commandWrite_of_ready hf hb, checkAndAccept_of_operandsOk hok]

/-! ### A step runs the decoded instruction -/

/-- The host's write of a word that decodes to a command runs the command. -/
theorem performOp_write_cmd {w : Word} {i : Instr} (h : decode w = .instr i) (s : State) :
    performOp (.write 0#6 w) s = exec i s := by
  have hline : performOp (.write 0#6 w) s = performCommand w s := rfl
  rw [hline, performCommand, h]

/-- Settles O4: the line taken off is a write to `CMD`, and its word names the command. -/
theorem stepRunsTheCommandWritten : Obligations.StepRunsTheCommandWritten := by
  intro s w i rest ht hp hd _
  rw [step_host ht hp, performOp_write_cmd hd]

/-- The line that `withFetchWord` places for a command's word is the write of that word to `CMD`. -/
theorem fetchLine_encode (i : Instr) : fetchLine 64 (encode i).toNat = .write 0#6 (encode i) := by
  rw [fetchLine, Nat.mod_eq_of_lt (encode i).isLt, BitVec.ofNat_toNat, BitVec.setWidth_eq]
  rfl

theorem decodeTableWord_encode (i : Instr) : decodeTableWord 64 (encode i).toNat = some i := by
  have hlt : (encode i).toNat < 2 ^ min 64 64 := (encode i).isLt
  rw [decodeTableWord, if_pos hlt, BitVec.ofNat_toNat, BitVec.setWidth_eq, decode_encode]
  rfl

/-- Settles O3: the placed line is a write to `CMD` on the host's turn, so O4 speaks of it. -/
theorem placedWordRunsItsCommand : Obligations.PlacedWordRunsItsCommand := by
  intro i s
  refine ⟨decodeTableWord_encode i, ?_⟩
  have hline : (s.withFetchWord 64 (encode i).toNat).program = .write 0#6 (encode i) :: s.program := by
    rw [← fetchLine_encode]; rfl
  exact stepRunsTheCommandWritten _ _ i _ rfl hline (decode_encode i) (by cases i <;> rfl)

/-- Settles O5, by the law of the engine's step. -/
theorem stepRunsTheCommandRunning : Obligations.StepRunsTheCommandRunning := fun _ i ht hb ho =>
  step_engine ht hb (ho.trans (opcodeByte_eq_opcodeOf i))

/-! ### The engine outside and inside its domain -/

/-- On latches outside the command's domain the model stops. -/
theorem exec_engine_outside_domain {i : Instr} {s : State} {c : Cause} (ht : s.turn = .engine)
    (hb : s.block.busy = true) (ho : s.block.opc = opcodeOf i)
    (hl : operandFault i s.block.la s.block.lm = some c) : exec i s = .fault .latchesOutsideDomain := by
  rw [exec_eq, commandStep, ht]
  simp [completion, hb, ho, hl]

/-- The opcodes 0x00 and 0x05 to 0xFF name no command (R63). -/
theorem commandOf_eq_none {op : Opcode} (h : op = 0#8 ∨ 5 ≤ op.toNat) : commandOf op = none := by
  cases hc : commandOf op with
  | none => rfl
  | some i =>
    obtain rfl := commandOf_eq_some_iff.mp hc
    rcases opcodeOf_range i with hi | hi | hi | hi <;> simp [hi] at h

/-- With an `OPC` that names no command the engine's step stops the model. -/
theorem step_engine_of_no_command {s : State} (ht : s.turn = .engine) (hb : s.block.busy = true)
    (ho : commandOf s.block.opc = none) : step s = .fault .opcNamesNoCommand := by
  simp [step, agentTurn, ht, engineTurn, hb, ho]

/-- Settles O26, clause by clause. -/
theorem engineOutsideItsDomain : Obligations.EngineOutsideItsDomain := by
  refine ⟨fun i s ht hidle => ?_, fun s ht hb hm => ⟨fun ho => ?_, fun ho => ?_⟩, fun s ht hb ho ha => ?_,
    fun s ht hb ho => step_engine_of_no_command ht hb (commandOf_eq_none ho)⟩
  · refine exec_engine_disabled ht ?_
    rintro ⟨hb, ho⟩
    rcases hidle with hidle | hother
    · exact absurd (hb.symm.trans hidle) (by decide)
    · exact hother (ho.trans (opcodeByte_eq_opcodeOf i).symm)
  · exact exec_engine_outside_domain (i := .modsq) ht hb ho (if_pos hm)
  · exact exec_engine_outside_domain (i := .modpow) ht hb ho (if_pos hm)
  · exact exec_engine_outside_domain (i := .isprime) ht hb ho (if_pos ha)

/-- Under the invariants a busy block runs a command whose latches are in its domain (R30 item 4). -/
theorem running_command_of_inv {b : Block} (h : b.Inv) (hb : b.busy = true) :
    ∃ i, b.opc = opcodeOf i ∧ operandFault i b.la b.lm = none := by
  have hmodulus (ho : b.opc = 1#8 ∨ b.opc = 2#8) : b.lm ≠ 0#64 :=
    (Modular.ne_zero_iff_one_le b.lm).mpr (h.busy_modulus hb ho)
  rcases h.busy_opc hb with ho | ho | ho | ho
  · exact ⟨.modsq, ho, operandFault_modsq_eq_none.mpr (hmodulus (.inl ho))⟩
  · exact ⟨.modpow, ho, operandFault_modpow_eq_none.mpr (hmodulus (.inr ho))⟩
  · exact ⟨.isprime, ho, operandFault_isprime_eq_none.mpr (h.busy_candidate hb ho)⟩
  · exact ⟨.factor, ho, operandFault_factor⟩

/-- Settles O46: a host line always answers, and the engine completes a command whose latches are in its domain. -/
theorem stepAlwaysAnswers : Obligations.StepAlwaysAnswers := by
  intro s hinv
  cases ht : s.turn with
  | host =>
    cases hp : s.program with
    | nil => exact ⟨_, step_host_idle ht hp⟩
    | cons op rest =>
      obtain ⟨u, hu, -⟩ := performOp_next (s := { s with program := rest }) ht op
      exact ⟨passTurn u, by rw [step_host ht hp, hu, passOutcome_next]⟩
  | engine =>
    cases hb : s.block.busy with
    | false => exact ⟨_, step_engine_idle ht hb⟩
    | true =>
      obtain ⟨i, ho, hl⟩ := running_command_of_inv hinv hb
      exact ⟨_, by rw [step_engine ht hb ho, exec_engine ht hb ho hl, passOutcome_next]⟩

/-! ### Frames -/

/-- An index is its column's base and the offset that names the pair. -/
theorem index_eq_base_add (base idx : Index) : idx = base + BitVec.ofNat 6 (idx - base).toNat := by
  rw [BitVec.ofNat_toNat, BitVec.setWidth_eq, BitVec.add_comm, BitVec.sub_add_cancel]

/-- The map finds a register at its own index only, and only registers that the port map names (R44). -/
theorem regAt_eq_some {idx : Index} {r : Reg} (h : regAt idx = some r) : r.wf = true ∧ idx = regIndex r := by
  unfold regAt at h
  split_ifs at h with hcmd hstatus hopa hopb hopm hres hfcnt hfp hfe <;> cases h
  · exact ⟨rfl, hcmd⟩
  · exact ⟨rfl, hstatus⟩
  · exact ⟨rfl, hopa⟩
  · exact ⟨rfl, hopb⟩
  · exact ⟨rfl, hopm⟩
  · exact ⟨rfl, hres⟩
  · exact ⟨rfl, hfcnt⟩
  · have hk : (idx - 0x10#6).toNat < 15 := by bv_omega
    exact ⟨decide_eq_true hk, index_eq_base_add 0x10#6 idx⟩
  · have hk : (idx - 0x20#6).toNat < 15 := by bv_omega
    exact ⟨decide_eq_true hk, index_eq_base_add 0x20#6 idx⟩

/-- A port read depends only on the register at its index. -/
theorem portRead_congr {idx : Index} {b b' : Block}
    (h : ∀ r : Reg, r.wf = true → idx = regIndex r → readReg b' r = readReg b r) : portRead idx b' = portRead idx b := by
  cases hr : regAt idx with
  | none => rw [portRead_of_reserved hr, portRead_of_reserved hr]
  | some r =>
    obtain ⟨hwf, hidx⟩ := regAt_eq_some hr
    rw [portRead_of_regAt hr, portRead_of_regAt hr, h r hwf hidx]

/-- The operand registers, the result register and the factor file are the same in the two blocks. -/
structure SameData (b b' : Block) : Prop where
  opa : b'.opa = b.opa
  opb : b'.opb = b.opb
  opm : b'.opm = b.opm
  res : b'.res = b.res
  fcnt : b'.fcnt = b.fcnt
  fp : b'.fp = b.fp
  fe : b'.fe = b.fe

/-- So every index but those of `CMD` and `STATUS` reads the same. -/
theorem SameData.portRead_eq {b b' : Block} (h : SameData b b') {idx : Index} (hidx : 2 ≤ idx.toNat) :
    portRead idx b' = portRead idx b := by
  refine portRead_congr fun r _ hr => ?_
  cases r with
  | cmd => rw [hr] at hidx; exact absurd hidx (by decide)
  | status => rw [hr] at hidx; exact absurd hidx (by decide)
  | opa => exact h.opa
  | opb => exact h.opb
  | opm => exact h.opm
  | res => exact h.res
  | fcnt => rw [readReg, readReg, h.fcnt]
  | fp k => rw [readReg, readReg, h.fp]
  | fe k => rw [readReg, readReg, h.fe]

/-- A command write changes flags, cause, `OPC` and latches at most. -/
theorem sameData_issue (i : Instr) (b : Block) : SameData b (issue i b) := by
  rcases issue_cases i b with ⟨-, h⟩ | ⟨-, -, h⟩ | ⟨-, -, c, -, h⟩ | ⟨-, -, -, h⟩ <;> rw [h] <;>
    exact ⟨rfl, rfl, rfl, rfl, rfl, rfl, rfl⟩

/-- A block that is faulted after a command write has accepted nothing. -/
theorem issue_of_fault {i : Instr} {b : Block} (hf : (issue i b).fault = true) :
    (issue i b).opc = b.opc ∧ (issue i b).la = b.la ∧ (issue i b).lb = b.lb ∧ (issue i b).lm = b.lm := by
  rcases issue_cases i b with ⟨-, h⟩ | ⟨-, -, h⟩ | ⟨-, -, c, -, h⟩ | ⟨hready, -, -, h⟩
  · rw [h]; exact ⟨rfl, rfl, rfl, rfl⟩
  · rw [h]; exact ⟨rfl, rfl, rfl, rfl⟩
  · rw [h]; exact ⟨rfl, rfl, rfl, rfl⟩
  · rw [h, accept_fault, hready] at hf; cases hf

/-- A block that is not faulted after a command write has taken no fault, so its cause is the old one. -/
theorem issue_cause_of_not_fault {i : Instr} {b : Block} (hf : (issue i b).fault = false) :
    (issue i b).cause = b.cause := by
  rcases issue_cases i b with ⟨-, h⟩ | ⟨-, -, h⟩ | ⟨-, -, c, -, h⟩ | ⟨-, -, -, h⟩
  · rw [h]
  · rw [h] at hf; cases hf
  · rw [h] at hf; cases hf
  · rw [h]; rfl

/-- Settles O35: on the host's turn a command is its command write. -/
theorem commandWriteFrame : Obligations.CommandWriteFrame := by
  intro i s t ht hexec
  rw [exec_host ht] at hexec
  cases hexec
  have hdata := sameData_issue i s.block
  exact ⟨hdata.opa, hdata.opb, hdata.opm, hdata.res, hdata.fcnt, hdata.fp, hdata.fe,
    fun _ => hdata.portRead_eq, issue_of_fault, issue_cause_of_not_fault, rfl, rfl, rfl, rfl⟩

/-- MODSQ, MODPOW and ISPRIME write `RES` and nothing else (R80, R90, R100). -/
theorem resultOf_eq_setRes {i : Instr} (h : i ≠ .factor) (b : Block) : ∃ v, resultOf i b = setRes v b := by
  cases i with
  | modsq => exact ⟨_, rfl⟩
  | modpow => exact ⟨_, rfl⟩
  | isprime => exact ⟨_, rfl⟩
  | factor => exact absurd rfl h

/-- A completion that writes `RES` leaves the reads of the other indices but `STATUS` as they were. -/
theorem portRead_finish_setRes {idx : Index} (hstatus : idx.toNat ≠ 1) (hres : idx.toNat ≠ 5) (v : Word) (b : Block) :
    portRead idx (finish (setRes v b)) = portRead idx b := by
  refine portRead_congr fun r _ hr => ?_
  cases r with
  | status => exact absurd (congrArg BitVec.toNat hr) hstatus
  | res => exact absurd (congrArg BitVec.toNat hr) hres
  | cmd | opa | opb | opm | fcnt | fp | fe => rfl

theorem toNat_regIndex_fp {k : Nat} (h : (Reg.fp k).wf = true) : (regIndex (.fp k)).toNat = 0x10 + k := by
  have hk : k < 15 := of_decide_eq_true h
  rw [regIndex, BitVec.toNat_add, BitVec.toNat_ofNat, BitVec.toNat_ofNat]
  omega

theorem toNat_regIndex_fe {k : Nat} (h : (Reg.fe k).wf = true) : (regIndex (.fe k)).toNat = 0x20 + k := by
  have hk : k < 15 := of_decide_eq_true h
  rw [regIndex, BitVec.toNat_add, BitVec.toNat_ofNat, BitVec.toNat_ofNat]
  omega

/-- FACTOR's completion leaves the reads below the factor file's indices, but for `STATUS`, as they were. -/
theorem portRead_finish_setFactors {idx : Index} (hstatus : idx.toNat ≠ 1) (hlow : idx.toNat < 6)
    (out : List (Nat × Nat)) (b : Block) : portRead idx (finish (setFactors out b)) = portRead idx b := by
  refine portRead_congr fun r hwf hr => ?_
  cases r with
  | status => exact absurd (congrArg BitVec.toNat hr) hstatus
  | fcnt => rw [hr] at hlow; exact absurd hlow (by decide)
  | fp k =>
    rw [hr, toNat_regIndex_fp hwf] at hlow
    omega
  | fe k =>
    rw [hr, toNat_regIndex_fe hwf] at hlow
    omega
  | cmd | opa | opb | opm | res => rfl

/-- Settles O36: the command completes, with the frame of its result, or has no step. -/
theorem completionFrame : Obligations.CompletionFrame := by
  intro i s t ht hexec
  rcases exec_next_cases hexec with ⟨hhost, -⟩ | ⟨-, -, -, -, rfl⟩ | ⟨-, -, rfl⟩
  · exact absurd (ht.symm.trans hhost) (by decide)
  · refine ⟨by simp, by simp, by simp, by simp, by simp, by simp, by simp, by simp, by simp, fun hi => ?_, ?_,
      rfl, rfl, rfl, rfl⟩
    · obtain ⟨v, hv⟩ := resultOf_eq_setRes hi s.block
      simp only [hv]
      exact ⟨rfl, rfl, rfl, fun idx h1 h5 => portRead_finish_setRes h1 h5 v s.block⟩
    · rintro rfl
      exact ⟨rfl, fun idx h1 h6 => portRead_finish_setFactors h1 h6 _ s.block⟩
  · exact ⟨rfl, rfl, rfl, rfl, rfl, rfl, rfl, rfl, rfl, fun _ => ⟨rfl, rfl, rfl, fun _ _ _ => rfl⟩,
      fun _ => ⟨rfl, fun _ _ _ => rfl⟩, rfl, rfl, rfl, rfl⟩

/-! ### The host's two loops -/

theorem portRead_status (b : Block) : portRead (regIndex .status) b = statusWord b := rfl
theorem portRead_fcnt (b : Block) : portRead (regIndex .fcnt) b = b.fcnt.setWidth 64 := rfl

/-- One poll of `WAIT` keeps the line exactly while the block is busy. -/
theorem pollStatus_program (s : State) :
    (pollStatus s).program = if s.block.busy then .wait :: s.program else s.program := by
  obtain ⟨hbusy, -⟩ := statusWord_flags s.block
  rw [pollStatus, portRead_status, hbusy]
  cases s.block.busy <;> rfl

/-- The number of pairs that the factor reads go through is `FCNT`. -/
theorem startPairReads_program (s : State) :
    (startPairReads s).program = pairReads s.block.fcnt.toNat ++ s.program := by
  rw [startPairReads, portRead_fcnt, BitVec.toNat_setWidth_of_le (by decide)]
  rfl

theorem pairReads_succ (k : Nat) :
    pairReads (k + 1) = pairReads k ++ [.read (regIndex (.fp k)), .read (regIndex (.fe k))] := by
  simp [pairReads, List.range_succ]

theorem length_pairReads (k : Nat) : (pairReads k).length = 2 * k := by
  induction k with
  | zero => rfl
  | succ k ih => rw [pairReads_succ, List.length_append, ih]; rfl

/-- Pair `j` is read in the lines `2j` and `2j + 1`. -/
theorem pairReads_getElem? {j k : Nat} (h : j < k) :
    (pairReads k)[2 * j]? = some (.read (regIndex (.fp j))) ∧
    (pairReads k)[2 * j + 1]? = some (.read (regIndex (.fe j))) := by
  induction k with
  | zero => omega
  | succ k ih =>
    have hlen := length_pairReads k
    rw [pairReads_succ]
    rcases Nat.lt_succ_iff_lt_or_eq.mp h with hlt | rfl
    · rw [List.getElem?_append_left (by omega), List.getElem?_append_left (by omega)]
      exact ih hlt
    · rw [List.getElem?_append_right (by omega), List.getElem?_append_right (by omega), hlen]
      simp

/-- Settles O42: a poll reads `STATUS`, and the pair reads are put next after that of `FCNT`. -/
theorem hostLoopsReadAndRepeat : Obligations.HostLoopsReadAndRepeat := by
  intro s rest ht
  refine ⟨fun hp => ⟨_, step_host ht hp, ?_, ?_, ?_⟩,
    fun hp => ⟨_, pairReads s.block.fcnt.toNat, step_host ht hp, ?_, ?_, ?_, length_pairReads _, fun k hk => ?_⟩⟩
  · rw [passTurn_block, pollStatus_block]
  · rw [passTurn_reads, pollStatus_reads]; rfl
  · rw [passTurn_program, pollStatus_program]
  · rw [passTurn_block, startPairReads_block]
  · rw [passTurn_reads, startPairReads_reads]; rfl
  · rw [passTurn_program, startPairReads_program]
  · rw [BitVec.ofNat_add, BitVec.ofNat_add]
    exact pairReads_getElem? hk

end Sys2Proof.Encoding
end

section
/-! The statements of 40_modsq.md: MODSQ's completion (R80, R82) and its function's reduction law (R81). -/

namespace Sys2Proof.Modsq

open Sys2Proof.Machine

/-- The range of R82: a square modulo `m >= 1` is below `m`. -/
theorem modsq_lt {x m : Word} (hm : 0 < m.toNat) : (modsq x m).toNat < m.toNat := by
  rw [modsq_toNat hm]
  exact Nat.mod_lt _ hm

/-- With modulus 1 the only residue is 0 (R82). -/
theorem modsq_modulus_one (x : Word) : modsq x 1#64 = 0#64 := by
  have hlt : (modsq x 1#64).toNat < 1 := modsq_lt (m := 1#64) (by decide)
  exact BitVec.eq_of_toNat_eq (Nat.lt_one_iff.mp hlt)

/-- Settles O20: the completion writes `modsq LA LM`, which is the integer square modulo `LM`. -/
theorem modsqCompletes : Obligations.ModsqCompletes := by
  intro s ht hb ho hl
  have hm : 0 < s.block.lm.toNat := (Modular.ne_zero_iff_one_le _).mp hl
  refine ⟨modsq s.block.la s.block.lm, exec_engine ht hb ho (operandFault_modsq_eq_none.mpr hl), ?_,
    Nat.le_sub_one_of_lt (modsq_lt hm), fun hone => ?_⟩
  · rw [modsq_toNat hm, sq]
  · rw [hone, modsq_modulus_one]

/-- R81: the operand may be reduced modulo `m` before it is squared. -/
theorem modsq_reduced {x m : Word} (hm : 0 < m.toNat) : modsq (x % m) m = modsq x m := by
  apply BitVec.eq_of_toNat_eq
  rw [modsq_toNat hm, modsq_toNat hm, BitVec.toNat_umod, ← Nat.mul_mod]

/-- Settles O28: the reduction law, and R81's two operands evaluated. -/
theorem modsqMayReduceFirst : Obligations.ModsqMayReduceFirst :=
  ⟨fun _ _ hm => modsq_reduced hm, by decide, by decide⟩

end Sys2Proof.Modsq
end

section
/-! The statements of 41_modpow.md: MODPOW's completion (R92, R93), the values of its scratch (R91) and the other
realisations of its loop (R94). -/

namespace Sys2Proof.Modpow

open Sys2Proof.Machine Sys2Proof.Claims Sys2Proof.Modular

/-! ### The value of MODPOW -/

/-- Exponent 0 gives the literal 1, even with modulus 1 (R92). -/
theorem modpow_exponent_zero (base m : Word) : modpow base 0#64 m = 1#64 :=
  modpowLoop_zero_exponent m 64 1#64 base

/-- Any other exponent gives the integer power modulo `m` (R91). -/
theorem modpow_toNat_of_ne_zero {base exponent m : Word} (hm : 0 < m.toNat) (he : exponent ≠ 0#64) :
    (modpow base exponent m).toNat = base.toNat ^ exponent.toNat % m.toNat := by
  rw [modpow_toNat hm, if_neg he]

/-- The range of R93, which exponent 0 with modulus 1 would leave. -/
theorem modpow_lt {base exponent m : Word} (hm : 0 < m.toNat) (he : exponent ≠ 0#64) :
    (modpow base exponent m).toNat < m.toNat := by
  rw [modpow_toNat_of_ne_zero hm he]
  exact Nat.mod_lt _ hm

/-- With modulus 1 and a non-zero exponent the only residue is 0 (R93). -/
theorem modpow_modulus_one {base exponent : Word} (he : exponent ≠ 0#64) : modpow base exponent 1#64 = 0#64 := by
  have hlt : (modpow base exponent 1#64).toNat < 1 := modpow_lt (m := 1#64) (by decide) he
  exact BitVec.eq_of_toNat_eq (Nat.lt_one_iff.mp hlt)

/-- Settles O21: the completion writes `modpow LA LB LM`, with its value, its range and modulus 1 as above. -/
theorem modpowCompletes : Obligations.ModpowCompletes := by
  intro s ht hb ho hl
  have hm : 0 < s.block.lm.toNat := (ne_zero_iff_one_le _).mp hl
  refine ⟨modpow s.block.la s.block.lb s.block.lm, exec_engine ht hb ho (operandFault_modpow_eq_none.mpr hl),
    fun he => ?_, fun he => ⟨modpow_toNat_of_ne_zero hm he, Nat.le_sub_one_of_lt (modpow_lt hm he), fun hone => ?_⟩⟩
  · rw [he, modpow_exponent_zero]
  · rw [hone, modpow_modulus_one he]

/-! ### The scratch values of R91 -/

/-- A remainder modulo a non-zero word fits in a word. -/
theorem toNat_ofNat_mod {m : Word} (hm : 0 < m.toNat) (n : Nat) :
    (BitVec.ofNat 64 (n % m.toNat)).toNat = n % m.toNat := by
  rw [BitVec.toNat_ofNat, Nat.mod_eq_of_lt ((Nat.mod_lt n hm).trans m.isLt)]

/-- The scratch `acc` after `k` rounds is the power to the exponent's low `k` bits, modulo `m`. -/
theorem modpowAcc_modEq {m : Word} (hm : 0 < m.toNat) (base exponent : Word) (k : Nat) :
    (modpowAcc base exponent m k).toNat ≡ base.toNat ^ (exponent.toNat % 2 ^ k) [MOD m.toNat] := by
  unfold modpowAcc
  split
  · next hlow => rw [hlow, pow_zero]; rfl
  · rw [toNat_ofNat_mod hm]
    exact Nat.mod_modEq _ _

/-- The scratch `b` after `k` rounds is the base squared `k` times, modulo `m`. -/
theorem modpowBase_modEq {m : Word} (hm : 0 < m.toNat) (base : Word) (k : Nat) :
    (modpowBase base m k).toNat ≡ base.toNat ^ 2 ^ k [MOD m.toNat] := by
  unfold modpowBase
  split
  · next hk => rw [hk, pow_zero, pow_one]
  · rw [toNat_ofNat_mod hm]
    exact Nat.mod_modEq _ _

/-- What the rounds done and the rounds left contribute is together the whole power. -/
theorem modpowAcc_mul_modpowBase_pow {m : Word} (hm : 0 < m.toNat) (base exponent : Word) (k : Nat) :
    (modpowAcc base exponent m k).toNat * (modpowBase base m k).toNat ^ (exponent >>> k).toNat ≡
      base.toNat ^ exponent.toNat [MOD m.toNat] :=
  calc (modpowAcc base exponent m k).toNat * (modpowBase base m k).toNat ^ (exponent >>> k).toNat
      ≡ base.toNat ^ (exponent.toNat % 2 ^ k) * (base.toNat ^ 2 ^ k) ^ (exponent >>> k).toNat [MOD m.toNat] :=
        (modpowAcc_modEq hm base exponent k).mul ((modpowBase_modEq hm base k).pow _)
    _ = base.toNat ^ exponent.toNat := by
        rw [ushiftRight_toNat, ← pow_mul, ← pow_add, Nat.mod_add_div]

/-- The value at the loop's exit (R91). -/
theorem modpow_eq_power {m : Word} (hm : 0 < m.toNat) (base exponent : Word) :
    modpow base exponent m =
      if exponent = 0#64 then 1#64 else BitVec.ofNat 64 (base.toNat ^ exponent.toNat % m.toNat) := by
  split
  · next he => rw [he, modpow_exponent_zero]
  · next he => rw [← modpow_toNat_of_ne_zero hm he, BitVec.ofNat_toNat, BitVec.setWidth_eq]

/-- A shift that leaves nothing drops every bit of the exponent. -/
theorem toNat_lt_of_ushiftRight_eq_zero {e : Word} {k : Nat} (h : e >>> k = 0#64) : e.toNat < 2 ^ k := by
  have hquot : e.toNat / 2 ^ k = 0 := by rw [← ushiftRight_toNat, h]; rfl
  exact (Nat.div_eq_zero_iff_lt (Nat.two_pow_pos k)).mp hquot

/-- Once no bit of the exponent is left, the scratch `acc` holds the result. -/
theorem modpowAcc_of_exponent_done {m : Word} (hm : 0 < m.toNat) (base : Word) {exponent : Word} {k : Nat}
    (hdone : exponent >>> k = 0#64) : modpowAcc base exponent m k = modpow base exponent m := by
  have hzero : exponent = 0#64 ↔ exponent.toNat = 0 := BitVec.toNat_inj.symm
  rw [modpow_eq_power hm, modpowAcc, Nat.mod_eq_of_lt (toNat_lt_of_ushiftRight_eq_zero hdone)]
  simp only [hzero]

/-- The loop resumed from the scratch values of R91 returns the result: at once if no bit of the exponent is left, and
else by the product that the remaining rounds compute. -/
theorem modpowLoop_resumed {m : Word} (hm : 0 < m.toNat) (base exponent : Word) {k : Nat} (hk : k ≤ 64) :
    modpowLoop m (64 - k) (modpowAcc base exponent m k) (modpowBase base m k) (exponent >>> k) =
      modpow base exponent m := by
  by_cases hdone : exponent >>> k = 0#64
  · rw [hdone, modpowLoop_zero_exponent, modpowAcc_of_exponent_done hm base hdone]
  · have hexp : exponent ≠ 0#64 := by
      rintro rfl
      exact hdone BitVec.zero_ushiftRight
    have hfuel : (exponent >>> k).toNat < 2 ^ (64 - k) := by
      rw [ushiftRight_toNat]
      refine Nat.div_lt_of_lt_mul ?_
      rw [← pow_add, Nat.add_sub_cancel' hk]
      exact exponent.isLt
    apply BitVec.eq_of_toNat_eq
    rw [modpowLoop_toNat hm hdone hfuel, modpow_toNat_of_ne_zero hm hexp]
    exact modpowAcc_mul_modpowBase_pow hm base exponent k

/-- Settles O29: the loop resumed from R91's scratch values, and the value at its exit. -/
theorem modpowLoopLaw : Obligations.ModpowLoopLaw := fun base exponent _ hm =>
  ⟨fun _ hk => (modpowLoop_resumed hm base exponent hk).symm, modpow_eq_power hm base exponent⟩

/-! ### Other realisations -/

/-- The rounds that run after the exponent is used up only square the base. -/
theorem modpowFixed_zero_exponent (m : Word) (fuel : Nat) (acc b : Word) : modpowFixed m fuel acc b 0#64 = acc := by
  induction fuel generalizing b with
  | zero => rfl
  | succ k ih =>
    have hbit : (0#64).getLsbD 0 = false := by decide
    rw [modpowFixed, hbit, if_neg Bool.false_ne_true, BitVec.zero_ushiftRight, ih]

/-- So stopping at exponent 0 makes no difference, from any scratch values and for any number of rounds (R94). -/
theorem modpowFixed_eq_modpowLoop (m : Word) (fuel : Nat) (acc b e : Word) :
    modpowFixed m fuel acc b e = modpowLoop m fuel acc b e := by
  induction fuel generalizing acc b e with
  | zero => rfl
  | succ k ih =>
    by_cases he : e = 0#64
    · rw [he, modpowFixed_zero_exponent, modpowLoop_zero_exponent]
    · rw [modpowFixed, modpowLoop, if_neg he, ih]

/-- The base may be reduced modulo `m` before the loop (R94). -/
theorem modpow_reduced_base {m : Word} (hm : 0 < m.toNat) (base exponent : Word) :
    modpow (base % m) exponent m = modpow base exponent m := by
  rw [modpow_eq_power hm, modpow_eq_power hm, BitVec.toNat_umod, ← Nat.pow_mod]

/-- Settles O30: the fixed 64 rounds, and the base reduced first. -/
theorem modpowEquivalentRealisations : Obligations.ModpowEquivalentRealisations := fun base exponent m hm =>
  ⟨modpowFixed_eq_modpowLoop m 64 1#64 base exponent, modpow_reduced_base hm base exponent⟩

end Sys2Proof.Modpow
end

section
/-! The statements of 42_isprime.md: ISPRIME's completion (R100 to R105), the half of its verdict that the rules give
(R107), the division by a witness (R102, R106, R110) and the domain fault (R109). -/

namespace Sys2Proof.Isprime

open Sys2Proof.Machine Sys2Proof.Claims Sys2Proof.Primality

/-! ### The command -/

/-- Settles O14: on a ready block the command write is the operand check, which raises `DOMAIN`. -/
theorem smallCandidateTakesDomain : Obligations.SmallCandidateTakesDomain := by
  intro s ht hf hb ha
  have hdomain : operandFault .isprime s.block.opa s.block.opm = some .domain := if_pos ha
  refine ⟨?_, rfl⟩
  rw [exec_host ht, issue, commandWrite_of_ready hf hb, Encoding.checkAndAccept_of_operandFault hdomain]

/-- The completion of ISPRIME writes the verdict on `LA` as 1 or 0 (R100). -/
theorem exec_isprime_engine {s : State} (ht : s.turn = .engine) (hb : s.block.busy = true) (ho : s.block.opc = 3#8)
    (hl : 2 ≤ s.block.la.toNat) :
    exec .isprime s = .next { s with block := { s.block with
      res := if isprime s.block.la then 1#64 else 0#64, busy := false, done := true } } :=
  exec_engine ht hb ho (operandFault_isprime_eq_none.mpr hl)

/-- Settles O22: the verdict written is that of the integer test. -/
theorem isprimeCompletes : Obligations.IsprimeCompletes := by
  intro s ht hb ho hl
  refine ⟨_, exec_isprime_engine ht hb ho hl, ?_⟩
  rw [← isprime_iff_millerRabinPrime hl]
  cases isprime s.block.la <;> decide

/-! ### No prime fails the test -/

theorem prime_of_mem_witnessSet : ∀ a ∈ witnessSet, a.Prime := by decide

/-- Without zero divisors the only square roots of 1 are 1 and -1, so on the way from `x` to `x ^ 2 ^ s = 1` by repeated
squaring either `x` is 1 already or -1 is met. -/
theorem eq_one_or_neg_one_of_pow_two_pow_eq_one {R : Type} [Ring R] [NoZeroDivisors R] {x : R} {s : Nat}
    (h : x ^ 2 ^ s = 1) : x = 1 ∨ ∃ j < s, x ^ 2 ^ j = -1 := by
  induction s with
  | zero => exact .inl (by simpa using h)
  | succ k ih =>
    rw [pow_succ, pow_mul] at h
    rcases sq_eq_one_iff.mp h with hone | hneg
    · exact (ih hone).imp_right fun ⟨j, hj, hx⟩ => ⟨j, hj.trans k.lt_succ_self, hx⟩
    · exact .inr ⟨k, k.lt_succ_self, hneg⟩

/-- A power has remainder `r < p` exactly when it is `r` in the ring of residues modulo `p`. -/
theorem pow_mod_eq_iff_zmod {p r a k : Nat} (hr : r < p) : a ^ k % p = r ↔ (a : ZMod p) ^ k = r := by
  rw [← Nat.cast_pow, ZMod.natCast_eq_natCast_iff', Nat.mod_eq_of_lt hr]

/-- A prime is a strong probable prime to every base it does not divide: by Fermat's little theorem the squarings that
start from `a ^ d` end in 1 (R107). -/
theorem strongProbablePrime_of_prime {p d s a : Nat} (hp : p.Prime) (hsplit : p - 1 = d * 2 ^ s) (ha : ¬ p ∣ a) :
    strongProbablePrime p d s a := by
  have : Fact p.Prime := ⟨hp⟩
  have hfermat : ((a : ZMod p) ^ d) ^ 2 ^ s = 1 := by
    rw [← pow_mul, ← hsplit]
    exact ZMod.pow_card_sub_one_eq_one (mt (ZMod.natCast_eq_zero_iff a p).mp ha)
  have hone (k : Nat) : a ^ k % p = 1 ↔ (a : ZMod p) ^ k = 1 := by
    rw [pow_mod_eq_iff_zmod hp.one_lt, Nat.cast_one]
  have hneg (k : Nat) : a ^ k % p = p - 1 ↔ (a : ZMod p) ^ k = -1 := by
    rw [pow_mod_eq_iff_zmod (Nat.sub_one_lt hp.ne_zero), Nat.cast_pred hp.pos, ZMod.natCast_self, zero_sub]
  simp only [strongProbablePrime, hone, hneg]
  simpa only [pow_mul] using eq_one_or_neg_one_of_pow_two_pow_eq_one hfermat

/-- Every prime passes the integer test: no witness other than itself divides it or is a multiple of it. -/
theorem millerRabinPrime_of_prime {p : Nat} (hp : p.Prime) : millerRabinPrime p := by
  intro d s _ hsplit
  by_cases hmem : p ∈ witnessSet
  · exact .inl hmem
  · refine .inr fun a ha => ?_
    have hne : a ≠ p := fun h => hmem (h ▸ ha)
    have haprime := prime_of_mem_witnessSet a ha
    exact ⟨mt (Nat.prime_dvd_prime_iff_eq haprime hp).mp hne,
      strongProbablePrime_of_prime hp hsplit (mt (Nat.prime_dvd_prime_iff_eq hp haprime).mp hne.symm)⟩

/-- Settles O23: a prime `LA` passes the integer test, which is the verdict written. -/
theorem isprimeAcceptsEveryPrime : Obligations.IsprimeAcceptsEveryPrime := by
  intro s ht hb ho hp
  have hverdict := (isprime_iff_millerRabinPrime hp.two_le).mpr (millerRabinPrime_of_prime hp)
  rw [exec_isprime_engine ht hb ho hp.two_le, if_pos hverdict]

/-! ### Division by a witness -/

/-- A word that some witness divides is reported prime exactly if it is that witness (R102). -/
theorem isprime_iff_eq_of_witness_dvd {n : Word} {a : Nat} (hn : 2 ≤ n.toNat) (ha : a ∈ witnessSet)
    (hdvd : a ∣ n.toNat) : isprime n = true ↔ n.toNat = a := by
  rw [isprime_iff_millerRabinPrime hn]
  have haprime := prime_of_mem_witnessSet a ha
  constructor
  · intro h
    obtain ⟨hodd, hsplit⟩ := pred_decomposition hn
    rcases h _ _ hodd hsplit with hmem | hall
    · exact ((Nat.prime_dvd_prime_iff_eq haprime (prime_of_mem_witnessSet _ hmem)).mp hdvd).symm
    · exact absurd hdvd (hall a ha).1
  · exact fun h => millerRabinPrime_of_prime (h ▸ haprime)

/-- Settles O24: the rule above for witness 2, the verdicts on the witnesses themselves, and the rule for a witness smaller
than the word. -/
theorem witnessDivisionDecidesFirst : Obligations.WitnessDivisionDecidesFirst := by
  refine ⟨fun n hn heven => ?even, fun n hmem => ?witness, fun n a ha hlt hmod => ?multiple⟩
  case even =>
    have htwo := isprime_iff_eq_of_witness_dvd hn (a := 2) (by decide) (Nat.dvd_of_mod_eq_zero heven)
    rw [Bool.eq_iff_iff, decide_eq_true_iff, htwo, ← BitVec.toNat_inj]
    rfl
  case witness =>
    exact isprime_of_mem_witnesses n ((mem_witnesses_iff n).mpr hmem)
  case multiple =>
    have hn : 2 ≤ n.toNat := (prime_of_mem_witnessSet _ ha).two_le.trans hlt.le
    rw [Bool.eq_false_iff, ne_eq, isprime_iff_eq_of_witness_dvd hn ha (Nat.dvd_of_mod_eq_zero hmod)]
    exact hlt.ne'

end Sys2Proof.Isprime
end

section
/-! The statements of 43_factor.md: FACTOR's completion (R120, R121), its function as the prime factorization (R129), the
size of the factor file (R131), the candidates of the wheel (R132) and the walk by products (R136). -/

namespace Sys2Proof.Factor

open Sys2Proof.Machine Sys2Proof.Claims Sys2Proof.Factorizer

/-! ### The prime factorization -/

/-- FACTOR's list is each prime of `n`, rising, with its exponent. -/
theorem factor_eq (n : Word) : factor n = (primesOf n.toNat).map fun p => (p, n.toNat.factorization p) := by
  rw [List.zip_of_prod (factor_primes n) (factor_exponents n), List.map_prod_left_eq_zip]

/-- The list has as many pairs as `n` has distinct primes. -/
theorem length_factor (n : Word) : (factor n).length = n.toNat.primeFactors.card := by
  rw [factor_eq, List.length_map, primesOf, Finset.length_sort]

/-- A pair of the list is a prime of `n` with its exponent. -/
theorem mem_factor {n : Word} {pe : Nat × Nat} (h : pe ∈ factor n) :
    pe.1.Prime ∧ pe.1 ∣ n.toNat ∧ n.toNat ≠ 0 ∧ pe.2 = n.toNat.factorization pe.1 := by
  rw [factor_eq, List.mem_map] at h
  obtain ⟨p, hp, rfl⟩ := h
  obtain ⟨hprime, hdvd, hn⟩ := mem_primesOf.mp hp
  exact ⟨hprime, hdvd, hn, rfl⟩

/-- The powers multiply back to `n`. -/
theorem prod_factor {n : Word} (hn : n.toNat ≠ 0) : ((factor n).map fun pe => pe.1 ^ pe.2).prod = n.toNat := by
  calc ((factor n).map fun pe => pe.1 ^ pe.2).prod
      = ((primesOf n.toNat).map fun p => p ^ n.toNat.factorization p).prod := by rw [factor_eq, List.map_map]; rfl
    _ = ∏ p ∈ n.toNat.primeFactors, p ^ n.toNat.factorization p := by
        rw [primesOf, ← List.prod_toFinset _ (Finset.sort_nodup _ _), Finset.sort_toFinset]
    _ = n.toNat := Nat.prod_factorization_pow_eq_self hn

/-- Settles O31: the pairs are the primes of `n` with their exponents in the library's factorization. -/
theorem factorIsThePrimeFactorization : Obligations.FactorIsThePrimeFactorization := by
  refine fun n => ⟨fun hsmall => if_pos (BitVec.le_def.mpr hsmall), fun hlarge => ?_⟩
  have hn : n.toNat ≠ 0 := by omega
  refine ⟨fun p => ?primes, ?rising, fun pe hpe => ?powers, prod_factor hn⟩
  case primes => simp [factor_primes, mem_primesOf, hn]
  case rising =>
    rw [factor_primes]
    exact n.toNat.primeFactors.sortedLT_sort.pairwise
  case powers =>
    obtain ⟨hprime, hdvd, -, hexp⟩ := mem_factor hpe
    rw [hexp]
    exact ⟨(hprime.dvd_iff_one_le_factorization hn).mp hdvd, Nat.ordProj_dvd _ _,
      Nat.pow_succ_factorization_not_dvd hn hprime⟩

/-! ### The factor file -/

/-- Settles O25: what the completion writes, and the well-formed file's cleared tail. -/
theorem factorCompletes : Obligations.FactorCompletes := by
  intro s ht hb ho
  refine ⟨(factorResult s.block).fcnt, (factorResult s.block).fp, (factorResult s.block).fe,
    exec_engine ht hb ho operandFault_factor, factorResult_fcnt s.block, fun k => ⟨fun _ => ?_,
    (ArchState.factorFileOk_factorResult s.block).pair_cleared k⟩⟩
  rw [factorResult_fe, factorResult_fp]
  exact ⟨rfl, rfl⟩

/-- The number of R131 is the product of the first fifteen primes. -/
theorem prod_firstPrimes : ∏ p ∈ firstPrimes, p = (614889782588491410#64).toNat := by decide

/-- Settles O32: the bound on the distinct primes of a word, which the product of the first fifteen primes reaches. -/
theorem factorFileNeverOverflows : Obligations.FactorFileNeverOverflows := by
  have hbound (n : Word) : n.toNat.primeFactors.card ≤ 15 := by simpa [primesOf] using length_primesOf_le n
  refine ⟨fun n => ⟨hbound n, (length_factor n).trans_le (hbound n)⟩, ?_⟩
  rw [length_factor, ← prod_firstPrimes, Nat.primeFactors_prod fun p hp => (mem_firstPrimes.mp hp).2, card_firstPrimes]

/-! ### The wheel -/

/-- One step of the wheel, from a divisor and an index in any form. -/
theorem wheelAt_succ {k div : Nat} {w : Fin 8} (h : wheelAt k = (div, w)) :
    wheelAt (k + 1) = (div + Config.wheel[w], w + 1) := by
  simp only [wheelAt, h]

/-- Eight steps of the wheel are one turn: the divisor is 30 further on, at the same index. -/
theorem wheelAt_add_eight (k : Nat) : wheelAt (k + 8) = ((wheelAt k).1 + 30, (wheelAt k).2) := by
  induction k with
  | zero => rfl
  | succ k ih =>
    have hnext : wheelAt (k + 8 + 1) = _ := wheelAt_succ ih
    rw [show k + 1 + 8 = k + 8 + 1 by omega, hnext, wheelAt_succ (k := k) rfl, Nat.add_right_comm]

/-- Every divisor is one of the first turn, `30 * q` further on. -/
theorem wheelAt_turns (q r : Nat) : (wheelAt (8 * q + r)).1 = 30 * q + (wheelAt r).1 := by
  induction q with
  | zero => simp
  | succ q ih => rw [show 8 * (q + 1) + r = 8 * q + r + 8 by omega, wheelAt_add_eight, ih]; omega

/-- The divisors of the first turn are 7 and the sums of the increments. -/
theorem wheelAt_first_turn : ∀ r < 8, (wheelAt r).1 = 7 + (([4, 2, 4, 2, 4, 6, 2, 6] : List Nat).take r).sum := by decide

/-- They are coprime to 30, and the only ones among the 30 integers from 7 on. -/
theorem first_turn_coprime : ∀ m < 30, (7 + m).Coprime 30 ↔ ∃ r < 8, (wheelAt r).1 = 7 + m := by decide

/-- The divisors of the first turn lie within the 30 integers from 7 on. -/
theorem first_turn_range : ∀ r < 8, 7 ≤ (wheelAt r).1 ∧ (wheelAt r).1 < 37 := by decide

/-- The wheel's increments are positive. -/
theorem wheelAt_lt_succ (k : Nat) : (wheelAt k).1 < (wheelAt (k + 1)).1 := by
  obtain ⟨hinc, -, -⟩ := wheel_turns (wheelAt k).2
  rw [wheelAt_succ (k := k) rfl]
  exact Nat.lt_add_of_pos_right (by omega)

/-- Coprimality to 30 has the wheel's period. -/
theorem coprime_turns (q m : Nat) : (30 * q + m).Coprime 30 ↔ m.Coprime 30 := by
  rw [Nat.coprime_mul_left_add_left]

/-- The divisors are the integers from 7 on coprime to 30: so it is in the first turn, and both sides repeat. -/
theorem exists_wheelAt_iff (n : Nat) : (∃ k, (wheelAt k).1 = n) ↔ 7 ≤ n ∧ n.Coprime 30 := by
  constructor
  · rintro ⟨k, rfl⟩
    have hr : k % 8 < 8 := Nat.mod_lt _ (by decide)
    obtain ⟨hlo, hhi⟩ := first_turn_range _ hr
    have hm : 7 + ((wheelAt (k % 8)).1 - 7) = (wheelAt (k % 8)).1 := by omega
    have hfirst := (first_turn_coprime ((wheelAt (k % 8)).1 - 7) (by omega)).mpr ⟨k % 8, hr, hm.symm⟩
    rw [hm] at hfirst
    rw [← Nat.div_add_mod k 8, wheelAt_turns, coprime_turns]
    exact ⟨by omega, hfirst⟩
  · rintro ⟨hlo, hcoprime⟩
    have hn : n = 30 * ((n - 7) / 30) + (7 + (n - 7) % 30) := by omega
    rw [hn, coprime_turns, first_turn_coprime _ (Nat.mod_lt _ (by decide))] at hcoprime
    obtain ⟨r, -, hr⟩ := hcoprime
    exact ⟨8 * ((n - 7) / 30) + r, by rw [wheelAt_turns, hr, ← hn]⟩

/-- A candidate within the bound that does not divide is passed over (R126). -/
theorem wheelWalk_skip {div bound : Nat} {w : Fin 8} {work : FactorWork} (hle : div ≤ bound) (hnot : ¬ div ∣ work.rem)
    (fuel : Nat) :
    wheelWalk (fuel + 1) div w bound work = wheelWalk fuel (div + Config.wheel[w]) (w + 1) bound work := by
  rw [wheelWalk, if_pos hle, if_neg (mt Nat.dvd_of_mod_eq_zero hnot)]

/-- While no candidate within the bound divides, the walk's divisor and index are the wheel's. -/
theorem wheelWalk_wheelAt {bound k : Nat} {work : FactorWork}
    (h : ∀ j < k, (wheelAt j).1 ≤ bound ∧ ¬ (wheelAt j).1 ∣ work.rem) (fuel : Nat) :
    wheelWalk (fuel + k) 7 0 bound work = wheelWalk fuel (wheelAt k).1 (wheelAt k).2 bound work := by
  induction k generalizing fuel with
  | zero => rfl
  | succ k ih =>
    obtain ⟨hle, hnot⟩ := h k (by omega)
    calc wheelWalk (fuel + (k + 1)) 7 0 bound work
        = wheelWalk (fuel + 1 + k) 7 0 bound work := by rw [Nat.add_right_comm, Nat.add_assoc]
      _ = wheelWalk (fuel + 1) (wheelAt k).1 (wheelAt k).2 bound work := ih (fun j hj => h j (by omega)) (fuel + 1)
      _ = wheelWalk fuel (wheelAt (k + 1)).1 (wheelAt (k + 1)).2 bound work := wheelWalk_skip hle hnot fuel

/-- Settles O33: the wheel by its turns of eight steps, and the walk by its steps over candidates that do not divide. -/
theorem wheelEnumeratesCoprimes : Obligations.WheelEnumeratesCoprimes := by
  refine ⟨fun q r hr => ?_, wheelAt_lt_succ, exists_wheelAt_iff, fun fuel _ _ _ h => wheelWalk_wheelAt h fuel⟩
  rw [wheelAt_turns, wheelAt_first_turn r hr]
  omega

/-! ### The walk by products -/

/-- Dividing out a number that does not divide changes nothing. -/
theorem removeFactor_of_not_dvd {p : Nat} {work : FactorWork} (h : work.rem % p ≠ 0) : removeFactor p work = work := by
  simp [removeFactor, dividePower, pushPower, h]

/-- Dividing out leaves at least 1. -/
theorem removeFactor_rem_pos {p : Nat} {work : FactorWork} (hp : 2 ≤ p) (hpos : 0 < work.rem) (hlt : work.rem < 2 ^ 64) :
    0 < (removeFactor p work).rem := by
  obtain ⟨_, -, -, hpos', -⟩ := dividePower_spec (cnt := 0) hp hpos hlt
  exact hpos'

/-- Below `2^64` the test against the exact root is the test of the product (R127). -/
theorem le_isqrt64_iff_mul_self_le {div rem : Nat} (h : rem < 2 ^ 64) : div ≤ isqrt64 rem ↔ div * div ≤ rem := by
  rw [Scope.isqrt64_eq_sqrt h, Nat.le_sqrt]

/-- From any candidate, with the bound the exact root of what remains, the two walks are the same: they test the same, and
a candidate that does not divide leaves the work as it is. -/
theorem wheelWalk_eq_productWalk {fuel div : Nat} {w : Fin 8} {work : FactorWork} (hdiv : 2 ≤ div)
    (hpos : 0 < work.rem) (hlt : work.rem < 2 ^ 64) :
    wheelWalk fuel div w (isqrt64 work.rem) work = productWalk fuel div w work := by
  induction fuel generalizing div w work with
  | zero => rfl
  | succ fuel ih =>
    have hdiv' : 2 ≤ div + Config.wheel[w] := by omega
    simp only [wheelWalk, productWalk, le_isqrt64_iff_mul_self_le hlt]
    by_cases hbound : div * div ≤ work.rem
    · rw [if_pos hbound, if_pos hbound]
      by_cases hdvd : work.rem % div = 0
      · rw [if_pos hdvd]
        exact ih hdiv' (removeFactor_rem_pos hdiv hpos hlt) ((removeFactor_rem_le hdiv hpos hlt).trans_lt hlt)
      · rw [if_neg hdvd, removeFactor_of_not_dvd hdvd]
        exact ih hdiv' hpos hlt
    · rw [if_neg hbound, if_neg hbound]

/-- Settles O34: the walks are the same from the first candidate. -/
theorem walkByProductIsTheSame : Obligations.WalkByProductIsTheSame := fun _ hpos hlt =>
  wheelWalk_eq_productWalk (by decide) hpos hlt

end Sys2Proof.Factor
end

section
/-! The statements of 60_exceptions.md: what raises a fault (R140, R142, R147), what fault entry changes (R146), and the
faulted state (R148). -/

namespace Sys2Proof.Exceptions

open Sys2Proof.Machine Sys2Proof.Claims Sys2Proof.ArchState Sys2Proof.RegisterPort Sys2Proof.Encoding

/-! ### The cause `DIV_ZERO` -/

/-- The operand check of MODSQ and of MODPOW on a zero modulus, whatever the other operands hold. -/
theorem operandFault_zero_modulus {i : Instr} (hi : i = .modsq ∨ i = .modpow) {a m : Word} (hm : m = 0#64) :
    operandFault i a m = some .divZero := by
  rcases hi with rfl | rfl
  · exact if_pos hm
  · exact if_pos hm

/-- A command that does not look at the modulus records `DIV_ZERO` on no command write. -/
theorem issue_cause_ne_divZero {i : Instr} (hi : i = .isprime ∨ i = .factor) {b : Block} (hb : b.cause ≠ .divZero) :
    (issue i b).cause ≠ .divZero := by
  rcases issue_cases i b with ⟨-, h⟩ | ⟨-, -, h⟩ | ⟨-, -, c, hc, h⟩ | ⟨-, -, -, h⟩
  · rwa [h]
  · simp [h]
  · rcases operandFault_eq_some hc with ⟨hmodular, -⟩ | ⟨-, -, rfl⟩
    · rcases hi with rfl | rfl <;> simp at hmodular
    · simp [h]
  · rwa [h]

/-- Settles O13: on a ready block MODSQ and MODPOW fail their operand check; ISPRIME and FACTOR change the cause at the
command write only. -/
theorem zeroModulusTakesDivZero : Obligations.ZeroModulusTakesDivZero := by
  refine ⟨fun i s hi ht hf hb hm => ?_, fun i s t hi hcause hexec => ?_⟩
  · rw [exec_host ht, issue, commandWrite_of_ready hf hb,
      checkAndAccept_of_operandFault (operandFault_zero_modulus hi hm)]
  · rcases exec_next_cases hexec with ⟨-, rfl⟩ | ⟨-, -, -, -, rfl⟩ | ⟨-, -, rfl⟩
    · exact issue_cause_ne_divZero hi hcause
    · simpa using hcause
    · exact hcause

/-! ### The step that raises a fault -/

/-- Of the changes that a step can make, only fault entry raises a fault, on a host write to `CMD` (R140). -/
theorem faultEntry_of_stepChange {s : State} {b : Block} (hc : StepChange s b) (hs : s.block.fault = false)
    (hb : b.fault = true) :
    s.turn = .host ∧ ∃ w rest, s.program = .write 0#6 w :: rest ∧ ∃ c, c ≠ .none ∧ b = raiseFault c s.block := by
  cases hc with
  | faultEntry w rest c ht hp _ hcause => exact ⟨ht, w, rest, hp, c, hcause, rfl⟩
  | reset => cases hb
  | completion i => simp [hs] at hb
  | _ => exact absurd (hs.symm.trans hb) (by decide)

/-- Settles O17, by the one change that raises a fault. -/
theorem onlyCommandWritesRaiseFaults : Obligations.OnlyCommandWritesRaiseFaults := by
  intro s t hstep hs hb
  obtain ⟨ht, w, rest, hp, -⟩ := faultEntry_of_stepChange (step_change hstep) hs hb
  exact ⟨ht, w, rest, hp⟩

/-- After the host's write the block is what the port write makes of it. -/
theorem block_of_step_host_write {s t : State} {idx : Index} {v : Word} {rest : List HostOp} (ht : s.turn = .host)
    (hp : s.program = .write idx v :: rest) (h : step s = .next t) : t.block = portWrite idx v s.block := by
  rw [step_host_write ht hp] at h
  cases h
  exact passTurn_block _

/-- The codes of the four faults (R141). -/
theorem code_range_of_ne_none {c : Cause} (h : c ≠ .none) : 1 ≤ c.code.toNat ∧ c.code.toNat ≤ 4 := by
  cases c with
  | none => exact absurd rfl h
  | divZero => decide
  | domain => decide
  | illegalCmd => decide
  | busyCmd => decide

/-- Settles O18: the change is fault entry, whose cause code stands in `STATUS` from bit 4 on. -/
theorem faultEntryChangesFlagsOnly : Obligations.FaultEntryChangesFlagsOnly := by
  intro s t hstep hs hb
  obtain ⟨ht, w, rest, hp, c, hcause, hblock⟩ := faultEntry_of_stepChange (step_change hstep) hs hb
  refine ⟨⟨ht, w, rest, hp, block_of_step_host_write ht hp hstep⟩, ?_, ?_⟩
  · rw [hblock]; rfl
  · rw [statusWord_div_sixteen, hblock]
    exact code_range_of_ne_none hcause

/-! ### The faulted state -/

/-- Of the changes that a step can make, reset alone is open to a faulted block with no command running (R148). -/
theorem kept_or_reset_of_stepChange {s : State} {b : Block} (hc : StepChange s b) (hf : s.block.fault = true)
    (hidle : s.block.busy = false) :
    b = s.block ∨ (s.turn = .host ∧ ∃ rest, s.program = .reset :: rest ∧ b = Block.reset) := by
  cases hc with
  | kept => exact .inl rfl
  | reset rest ht hp => exact .inr ⟨ht, rest, hp, rfl⟩
  | completion i _ hbusy => exact absurd (hbusy.symm.trans hidle) (by decide)
  | _ => exact absurd (hf.symm.trans ‹s.block.fault = false›) (by decide)

/-- Settles O16: the invariants leave a faulted block idle, so that the engine has no step and only reset is open. -/
theorem faultedBlockLeavesOnlyByReset : Obligations.FaultedBlockLeavesOnlyByReset := by
  intro s t hinv hf hstep
  obtain ⟨hidle, -⟩ := hinv.fault_stops hf
  refine ⟨portWrite_of_fault hf, hf, fun ht => ?engine, fun idx rest ht hp => ?read,
    kept_or_reset_of_stepChange (step_change hstep) hf hidle⟩
  case engine =>
    rw [step_engine_idle ht hidle] at hstep
    cases hstep; rfl
  case read =>
    rw [step_host_read ht hp] at hstep
    cases hstep; rfl

/-- Settles O15: the write takes `BUSY_CMD`, and what follows is the faulted state's. -/
theorem busyCommandWriteAbandons : Obligations.BusyCommandWriteAbandons := by
  intro s w rest ht hp hf hb
  have hwrite : portWrite 0#6 w s.block = faulted .busyCmd s.block := commandWord_of_busy hf hb w
  refine ⟨_, step_host_write ht hp, by rw [passTurn_block, hwrite], ?_⟩
  simp only [passTurn_block, hwrite]
  refine ⟨fun u hu hblock => step_engine_idle hu (by rw [hblock]; rfl), fun u v hblock hstep => ?_⟩
  have hchange := kept_or_reset_of_stepChange (step_change hstep) (by rw [hblock]; rfl) (by rw [hblock]; rfl)
  rcases hchange with hkept | ⟨hu, lines, hreset, -⟩
  · exact .inl (hkept.trans hblock)
  · exact .inr ⟨hu, lines, hreset⟩

end Sys2Proof.Exceptions
end

section
/-! The statements of 70_reset_and_hazards.md: reset (R170), the hazards between the results of two commands (R179), and
the end of a running command (R178). -/

namespace Sys2Proof.ResetHazards

open Sys2Proof.Machine Sys2Proof.Claims Sys2Proof.ArchState Sys2Proof.RegisterPort Sys2Proof.Encoding

/-! ### What changes the results -/

section
variable {s : State} {b : Block}

/-- Of the changes that a step can make, only reset and the completions that own `RES` touch it (R13). -/
theorem res_changed_of_stepChange (hc : StepChange s b) (hne : b.res ≠ s.block.res) :
    (s.turn = .engine ∧ s.block.busy = true ∧ (s.block.opc = 1#8 ∨ s.block.opc = 2#8 ∨ s.block.opc = 3#8)) ∨
    (s.turn = .host ∧ ∃ rest, s.program = .reset :: rest) := by
  cases hc with
  | reset rest ht hp => exact .inr ⟨ht, rest, hp⟩
  | completion i ht hb ho =>
    cases i with
    | modsq => exact .inl ⟨ht, hb, .inl ho⟩
    | modpow => exact .inl ⟨ht, hb, .inr (.inl ho)⟩
    | isprime => exact .inl ⟨ht, hb, .inr (.inr ho)⟩
    | factor => exact absurd rfl hne
  | _ => exact absurd rfl hne

/-- Of the changes that a step can make, only reset and FACTOR's completion touch the factor file (R20). -/
theorem factorFile_changed_of_stepChange (hc : StepChange s b)
    (hne : b.fcnt ≠ s.block.fcnt ∨ b.fp ≠ s.block.fp ∨ b.fe ≠ s.block.fe) :
    (s.turn = .engine ∧ s.block.busy = true ∧ s.block.opc = 4#8) ∨
    (s.turn = .host ∧ ∃ rest, s.program = .reset :: rest) := by
  cases hc with
  | reset rest ht hp => exact .inr ⟨ht, rest, hp⟩
  | completion i ht hb ho =>
    by_cases hi : i = .factor
    · subst hi
      exact .inl ⟨ht, hb, ho⟩
    · obtain ⟨v, hv⟩ := resultOf_eq_setRes hi s.block
      simp [hv] at hne
  | _ => simp at hne
end

/-- Settles O38: each result register by the changes that touch it. -/
theorem resultsChangeOnlyAtTheirCompletion : Obligations.ResultsChangeOnlyAtTheirCompletion := fun _ _ hstep =>
  have hc := step_change hstep
  ⟨res_changed_of_stepChange hc, factorFile_changed_of_stepChange hc⟩

/-! ### A running command ends -/

/-- An agent's own action leaves the schedule alone. -/
theorem agentTurn_schedule {s u : State} (h : agentTurn s = .next u) : u.schedule = s.schedule := by
  rw [agentTurn] at h
  split at h
  · next ht =>
    rw [hostTurn] at h
    split at h
    · cases h; rfl
    · next op rest _ =>
      obtain ⟨v, hv, -, -, hsched⟩ := performOp_next (s := { s with program := rest }) ht op
      rw [hv] at h
      cases h
      exact hsched
  · rw [engineTurn] at h
    split at h
    · split at h
      · rcases exec_next_cases h with ⟨-, rfl⟩ | ⟨-, -, -, -, rfl⟩ | ⟨-, -, rfl⟩ <;> rfl
      · cases h
    · cases h; rfl

/-- A step ends with passing the turn, by the schedule it found. -/
theorem exists_passTurn_of_step {s t : State} (h : step s = .next t) :
    ∃ u, u.schedule = s.schedule ∧ t = passTurn u := by
  obtain ⟨u, hu, rfl⟩ := passOutcome_next_inv h
  exact ⟨u, agentTurn_schedule hu, rfl⟩

/-- A run of at most `k` steps leads to an idle block. -/
def IdleWithin (k : Nat) (s : State) : Prop :=
  ∃ n ≤ k, ∃ t : State, Host.Core.run Sys2Proof.core n s = .next t ∧ t.block.busy = false

theorem idleWithin_of_idle {s : State} (h : s.block.busy = false) (k : Nat) : IdleWithin k s :=
  ⟨0, Nat.zero_le k, s, rfl, h⟩

theorem idleWithin_succ_of_step {k : Nat} {s t : State} (hstep : step s = .next t) (h : IdleWithin k t) :
    IdleWithin (k + 1) s := by
  obtain ⟨n, hn, u, hrun, hidle⟩ := h
  exact ⟨n + 1, Nat.succ_le_succ hn, u, (run_succ n hstep).trans hrun, hidle⟩

/-- The engine's step completes whatever command is running (R67). -/
theorem idleWithin_one_of_engine {s : State} (hinv : s.block.Inv) (ht : s.turn = .engine) : IdleWithin 1 s := by
  obtain ⟨t, hstep⟩ := stepAlwaysAnswers s hinv
  refine idleWithin_succ_of_step hstep (idleWithin_of_idle ?_ 0)
  rcases step_block_cases hstep with ⟨hhost, -⟩ | ⟨hhost, -⟩ | ⟨-, hidle, hblock⟩ | ⟨-, -, i, -, -, hblock⟩
  · cases ht.symm.trans hhost
  · cases ht.symm.trans hhost
  · rw [hblock, hidle]
  · rw [hblock, finish_busy]

/-- The schedule is used up turn by turn, and after it the engine has the turn while the block is busy (R178). -/
theorem idleWithin_schedule {l : List Agent} {s : State} (hl : s.schedule = l) (hinv : s.block.Inv) :
    IdleWithin (l.length + 2) s := by
  induction l generalizing s with
  | nil =>
    obtain ⟨t, hstep⟩ := stepAlwaysAnswers s hinv
    refine idleWithin_succ_of_step hstep ?_
    cases hb : t.block.busy with
    | false => exact idleWithin_of_idle hb 1
    | true =>
      obtain ⟨u, hu, rfl⟩ := exists_passTurn_of_step hstep
      have hturn := (Scope.passTurn_turn_engine_iff_of_nil (hu.trans hl)).mpr (passTurn_block u ▸ hb)
      exact idleWithin_one_of_engine (stepKeepsInvariants _ _ hinv hstep) hturn
  | cons a rest ih =>
    obtain ⟨t, hstep⟩ := stepAlwaysAnswers s hinv
    refine idleWithin_succ_of_step hstep (ih ?_ (stepKeepsInvariants _ _ hinv hstep))
    obtain ⟨u, hu, rfl⟩ := exists_passTurn_of_step hstep
    rw [Scope.passTurn_schedule, hu, hl, List.tail_cons]

/-- Settles O47: the bound holds for every block with the invariants, busy or not. -/
theorem busyBlockBecomesIdle : Obligations.BusyBlockBecomesIdle := fun _ hinv _ => idleWithin_schedule rfl hinv

/-! ### Reset -/

/-- A step of the host whose next line is a reset: the block is the reset block, and the turn passes. -/
theorem step_host_reset {s : State} {rest : List HostOp} (ht : s.turn = .host) (hp : s.program = .reset :: rest) :
    step s = .next (passTurn { s with program := rest, block := Block.reset }) := by
  rw [step_host ht hp]
  rfl

/-- Every register of the reset block shows 0. -/
theorem readReg_reset (r : Reg) : readReg Block.reset r = 0#64 := by
  cases r with
  | cmd => rfl
  | status => rfl
  | opa => rfl
  | opb => rfl
  | opm => rfl
  | res => rfl
  | fcnt => rfl
  | fp i =>
    rw [readReg, Block.reset_fp, Vector.getElem?_replicate]
    split <;> rfl
  | fe i =>
    rw [readReg, Block.reset_fe, Vector.getElem?_replicate]
    split <;> rfl

/-- Every index of the reset block reads 0. -/
theorem portRead_reset (idx : Index) : portRead idx Block.reset = 0#64 := by
  cases hr : regAt idx with
  | none => exact portRead_of_reserved hr _
  | some r => rw [portRead_of_regAt hr, readReg_reset]

/-- Both columns of the reset block's factor file are zero. -/
theorem factorFile_reset (k : Fin 15) : Block.reset.fp[k] = 0#64 ∧ Block.reset.fe[k] = 0#64 := by
  simp

/-- Settles O19: the block after the step is the reset block, whose items, reads and outputs are zero. -/
theorem resetZeroesEveryItem : Obligations.ResetZeroesEveryItem := fun _ _ ht hp =>
  ⟨Block.reset, step_host_reset ht hp, rfl, rfl, rfl, rfl, rfl, rfl, rfl, rfl, rfl, rfl, rfl, factorFile_reset,
    rfl, rfl, rfl, portRead_reset, rfl⟩

end Sys2Proof.ResetHazards
end
